-- ==== Sys2Proof/Word.lean ====
section
/-! DEFINITION. The word types: a byte, an address, the index of a register (rules R5, R6). -/

namespace Sys2Proof

/-- A register, a memory cell, an operand: `XLEN` = 8 bits, unsigned (rules R5, R6). -/
abbrev Byte := BitVec 8

/-- A memory address: `ADDR_WIDTH` = 8 bits (rules R5, R42).
The program counter is one too (rule R26, decision D3, log entry 16). -/
abbrev Addr := BitVec 8

/-- A valid register index, 0 to 7 (rules R21, R25). -/
abbrev RegIdx := Fin 8

/-- Index 7 is the stack pointer (rule R22). -/
abbrev spIdx : RegIdx := 7

end Sys2Proof
end

