-- ==== Sys2Proof/Config.lean ====
section
/-! DEFINITION. The implementation parameters of rule R5: what one implementation fixes. The machine has no free
value (spec/93_implementation_defined.md, section 1: nothing in it is `any value`), so nothing here is opaque. -/

namespace Sys2Proof

/-- `OPCODE_MAP`: the byte value of each of the nine opcodes (rules R5, R66). -/
structure OpcodeMap where
  ldi  : Byte
  prn  : Byte
  mul  : Byte
  add  : Byte
  push : Byte
  pop  : Byte
  call : Byte
  ret  : Byte
  hlt  : Byte
deriving DecidableEq, Repr

/-- The nine values in the order of the spec's table. -/
def OpcodeMap.values (m : OpcodeMap) : List Byte :=
  [m.ldi, m.prn, m.mul, m.add, m.push, m.pop, m.call, m.ret, m.hlt]

/-- What any `OPCODE_MAP` must satisfy (rule R65): distinct values, none of them 0x00, and bits 7:6 equal to the
operand count. -/
def OpcodeMap.valid (m : OpcodeMap) : Bool :=
  decide m.values.Nodup && !m.values.contains 0
    && m.values.map (fun b : Byte => (b >>> 6).toNat) == [2, 1, 2, 2, 1, 1, 1, 0, 0]

/-- The default map of rule R66. PRESUMED (log entry 1): the spec takes the values from general knowledge (decision D1). -/
def Config.opcodeMap : OpcodeMap where
  ldi  := 0x82
  prn  := 0x47
  mul  := 0xA2
  add  := 0xA0
  push := 0x45
  pop  := 0x46
  call := 0x50
  ret  := 0x11
  hlt  := 0x01

/-- `GPR_INIT`: the reset value of registers 0 to 6 (rules R5, R35). DESIGN CHOICE (decision D7, log entry 3). -/
def Config.gprInit : Byte := 0

/-- `SP_INIT`: the reset value of register 7 (rules R5, R35). DESIGN CHOICE (decision D6, log entry 3). -/
def Config.spInit : Byte := 0xF4

/-- `LINE_TERMINATOR`: what the host writes after each printed value (rules R5, R148).
PRESUMED (decision D16, log entry 13). -/
def Config.lineTerminator : List Byte := [0x0A]

/-- `COMMENT_MARKER`: the comment character of the image text (rules R5, R152).
PRESUMED (decision D20, log entry 12). -/
def Config.commentMarker : Char := '#'

end Sys2Proof
end

