-- ==== Sys2Proof/Syntax.lean ====
section
/-! DEFINITION. The nine instructions (rules R1, R60, R72), one constructor per row of the opcode table. An operand
is the whole byte that stands in memory: a register operand above 7 is an instruction all the same, and raises
`AddressOutOfRange` when it is executed (rules R25, R63, R84). -/

namespace Sys2Proof

/-- An instruction with its operand bytes, in the order they stand in memory (rule R62). -/
inductive Instr where
  | ldi  (reg imm8 : Byte)     -- rule R90
  | prn  (reg : Byte)          -- rule R91
  | mul  (regA regB : Byte)    -- rule R106
  | add  (regA regB : Byte)    -- rule R107
  | push (reg : Byte)          -- rule R110
  | pop  (reg : Byte)          -- rule R111
  | call (reg : Byte)          -- rule R120
  | ret                        -- rule R121
  | hlt                        -- rule R122
deriving DecidableEq, Repr

/-- What the decoder reads from an opcode byte alone (rule R71): which instruction it is. -/
inductive Mnemonic where
  | ldi | prn | mul | add | push | pop | call | ret | hlt
deriving DecidableEq, Repr

/-- The operand count `n` of rules R60 and R71. -/
def Mnemonic.operandCount : Mnemonic → Nat
  | .ldi  => 2
  | .prn  => 1
  | .mul  => 2
  | .add  => 2
  | .push => 1
  | .pop  => 1
  | .call => 1
  | .ret  => 0
  | .hlt  => 0

/-- The instruction's mnemonic. -/
def Instr.mnemonic : Instr → Mnemonic
  | .ldi _ _ => .ldi
  | .prn _   => .prn
  | .mul _ _ => .mul
  | .add _ _ => .add
  | .push _  => .push
  | .pop _   => .pop
  | .call _  => .call
  | .ret     => .ret
  | .hlt     => .hlt

/-- The operand bytes in memory order (rule R62; decision D2, log entry 2). -/
def Instr.operands : Instr → List Byte
  | .ldi r v => [r, v]
  | .prn r   => [r]
  | .mul a b => [a, b]
  | .add a b => [a, b]
  | .push r  => [r]
  | .pop r   => [r]
  | .call r  => [r]
  | .ret     => []
  | .hlt     => []

/-- The operand bytes that the format uses as register indices, in the order they are checked (rules R60, R84). -/
def Instr.regOperands : Instr → List Byte
  | .ldi r _ => [r]
  | .prn r   => [r]
  | .mul a b => [a, b]
  | .add a b => [a, b]
  | .push r  => [r]
  | .pop r   => [r]
  | .call r  => [r]
  | .ret     => []
  | .hlt     => []

/-- The operand count of an instruction (rule R60). -/
def Instr.operandCount (i : Instr) : Nat := i.mnemonic.operandCount

end Sys2Proof
end

