-- ==== Sys2Proof/WellFormed.lean ====
section
/-! DEFINITION. Which instructions are well formed: every register operand byte is 0 to 7 (rules R25, R63). The
immediate of LDI is any byte (rules R63, R84). -/

namespace Sys2Proof

/-- A register-index operand byte is valid when the whole byte is 0 to 7 (rule R25). -/
def validReg (b : Byte) : Bool := decide (b.toNat < 8)

/-- The register-index check of rule R84, on the instruction as syntax. -/
def Instr.wf (i : Instr) : Bool := i.regOperands.all validReg

end Sys2Proof
end

