-- ==== Sys2Proof/Decode.lean ====
section
/-! DEFINITION. The decoder (rules R60 to R71), total on any bytes and rejecting by name, and after it the encoder
written from the same tables. Both take the opcode map as an argument (rule R66); the fixed names use its default. -/

namespace Sys2Proof

/-- Why bytes that begin with an opcode byte are no whole instruction. -/
inductive Reject where
  /-- The byte is not one of the nine opcodes (rules R68, R82). -/
  | unknownOpcode (b : Byte)
  /-- The opcode has `n` operands and fewer bytes follow it. In the machine this is a case of rule R85. -/
  | operandsMissing (n : Nat)
deriving DecidableEq, Repr

/-- Why a byte string does not begin with an instruction. -/
inductive DecodeError where
  | noBytes
  | reject (r : Reject)
deriving DecidableEq, Repr

/-- The decode function of rule R71 on one opcode byte. Whole-byte match (rules R61, R64). -/
def decodeOpcodeWith (m : OpcodeMap) (b : Byte) : Option Mnemonic :=
  if b = m.ldi then some .ldi
  else if b = m.prn then some .prn
  else if b = m.mul then some .mul
  else if b = m.add then some .add
  else if b = m.push then some .push
  else if b = m.pop then some .pop
  else if b = m.call then some .call
  else if b = m.ret then some .ret
  else if b = m.hlt then some .hlt
  else none

/-- Operand assembly (rules R62, R63): the first listed operand is the first byte after the opcode. Answers the
instruction and the bytes after it. -/
def takeOperands : Mnemonic → List Byte → Except Reject (Instr × List Byte)
  | .ldi,  a :: b :: rest => .ok (.ldi a b, rest)
  | .ldi,  _              => .error (.operandsMissing 2)
  | .prn,  a :: rest      => .ok (.prn a, rest)
  | .prn,  _              => .error (.operandsMissing 1)
  | .mul,  a :: b :: rest => .ok (.mul a b, rest)
  | .mul,  _              => .error (.operandsMissing 2)
  | .add,  a :: b :: rest => .ok (.add a b, rest)
  | .add,  _              => .error (.operandsMissing 2)
  | .push, a :: rest      => .ok (.push a, rest)
  | .push, _              => .error (.operandsMissing 1)
  | .pop,  a :: rest      => .ok (.pop a, rest)
  | .pop,  _              => .error (.operandsMissing 1)
  | .call, a :: rest      => .ok (.call a, rest)
  | .call, _              => .error (.operandsMissing 1)
  | .ret,  rest           => .ok (.ret, rest)
  | .hlt,  rest           => .ok (.hlt, rest)

/-- Decoding an opcode byte `op` and the bytes that follow it. -/
def decodeAtWith (m : OpcodeMap) (op : Byte) (rest : List Byte) : Except Reject (Instr × List Byte) :=
  match decodeOpcodeWith m op with
  | none    => .error (.unknownOpcode op)
  | some mn => takeOperands mn rest

/-- Decoding any byte string: its first instruction and the bytes after it, or the reason there is none. -/
def decodeWith (m : OpcodeMap) : List Byte → Except DecodeError (Instr × List Byte)
  | []         => .error .noBytes
  | op :: rest =>
    match decodeAtWith m op rest with
    | .ok r    => .ok r
    | .error e => .error (.reject e)

/-- The decoder with the default map. -/
def decode (bs : List Byte) : Except DecodeError (Instr × List Byte) := decodeWith Config.opcodeMap bs

/-- The opcode byte the map gives an instruction (rule R66). -/
def OpcodeMap.byteOf (m : OpcodeMap) : Mnemonic → Byte
  | .ldi  => m.ldi
  | .prn  => m.prn
  | .mul  => m.mul
  | .add  => m.add
  | .push => m.push
  | .pop  => m.pop
  | .call => m.call
  | .ret  => m.ret
  | .hlt  => m.hlt

/-- The bytes of an instruction at ascending addresses (rules R60, R62, R72). -/
def encodeWith (m : OpcodeMap) (i : Instr) : List Byte := m.byteOf i.mnemonic :: i.operands

/-- The encoder with the default map. -/
def encode (i : Instr) : List Byte := encodeWith Config.opcodeMap i

/-- The longest instruction has 3 bytes (rule R60). -/
def maxInstrBytes : Nat := 3

/-- The bytes of an instruction whose bits are `w`, bit 0 the least significant bit of the first byte; the bits from
`nbits` up are 0. As many bytes as the longest instruction has. -/
def tableBytes (nbits w : Nat) : List Byte :=
  (List.range maxInstrBytes).map fun k => BitVec.ofNat 8 ((w % 2 ^ nbits) >>> (8 * k))

/-- The instruction the decoder reads from an instruction whose bits are `w`, numbered as the opcode table numbers
them. -/
def decodeTableWord (nbits w : Nat) : Option Instr :=
  match decode (tableBytes nbits w) with
  | .ok (i, _) => some i
  | .error _   => none

end Sys2Proof
end

