-- ==== Sys2Proof/Machine/State.lean ====
section
/-! DEFINITION. The whole state of the machine (rules R20 to R35) as plain data, the reasons a step can stop, and the
state right after reset. -/

namespace Sys2Proof.Machine

/-- The run state (rule R31). -/
inductive RunState where
  | running
  | halted
  | faulted
deriving DecidableEq, Repr

/-- The field `cause` of the fault record, codes 0 to 4; codes 5 to 7 are never produced (rules R32, R160). -/
inductive Cause where
  | none
  | unknownOpcode
  | addressOutOfRange
  | unsupportedOperation
  | divideByZero
deriving DecidableEq, Repr

/-- The field `space` of the fault record: 0 is `MEM`, 1 is `REG` (rule R32). -/
inductive Space where
  | mem
  | reg
deriving DecidableEq, Repr

/-- The fault record (rule R32), the only control-and-status register of the machine; no instruction reads it. -/
structure FaultRecord where
  cause : Cause
  space : Space
  addr  : Addr
  val   : Byte
deriving DecidableEq, Repr

/-- All fields 0: the reset value, held while `run` is not FAULTED (rules R32, R35). -/
def FaultRecord.zero : FaultRecord where
  cause := .none
  space := .mem
  addr  := 0
  val   := 0

/-- The faults of rule R160, with what the raising rule says goes into `val`. -/
inductive Exception where
  /-- The byte fetched as an opcode is none (rule R161). -/
  | unknownOpcode (b : Byte)
  /-- `pc + 1 + n > 255` for an instruction with `n >= 1` operands; `excess` is `pc + 1 + n - 256` (rule R163). -/
  | addressOutOfRangeMem (excess : Byte)
  /-- A register-index operand byte above 7 (rule R162). -/
  | addressOutOfRangeReg (operand : Byte)
  /-- An ALU select outside the four operations (rules R108, R164). -/
  | unsupportedOperation (sel : BitVec 4)
  /-- ALU operation DIV with source value 0 (rules R105, R165). -/
  | divideByZero
deriving DecidableEq, Repr

/-- Memory: the listed cells, addresses strictly rising, none equal to what an unlisted address reads as
(`Memory.wf` in Machine/Ops.lean, rule R29, log entry 14). -/
abbrev Memory := List Host.Cell

/-- The six items of rule R20, and nothing else. -/
structure State where
  /-- `x[0]` to `x[7]` (rule R21); `x[7]` is the stack pointer (rule R22). -/
  regs  : Vector Byte 8
  /-- The program counter (rule R26). -/
  pc    : Addr
  /-- `M`, 256 byte cells for program, data and stack (rule R29). -/
  mem   : Memory
  /-- The run state (rule R31). -/
  run   : RunState
  /-- The fault record (rule R32). -/
  fault : FaultRecord
  /-- The output stream, oldest byte first (rule R33). -/
  out   : List Byte
deriving DecidableEq, Repr

/-- Why there is no next state. The faults of the spec are NOT these: they are entered, and their entry is a next
state with `run = FAULTED` (rule R168). -/
inductive Fault where
  /-- Raised by `step` when `run` is HALTED: "no step is defined" from there (rules R31, R80).
  DESIGN CHOICE of outcome (log entry 4). Safe: the hardware does nothing more either. -/
  | noStepHalted
  /-- Raised by `step` when `run` is FAULTED: "no step is defined" from there (rules R31, R80, R169).
  DESIGN CHOICE of outcome (log entry 4). Safe: the hardware does nothing more either. -/
  | noStepFaulted
deriving DecidableEq, Repr

/-- Why an instruction has no meaning. -/
inductive Refusal where
  /-- Raised by an arm of `exec` that has no meaning yet; no arm of this model uses it. Safe: nothing runs. -/
  | notModelled (mnemonic : String)
deriving DecidableEq, Repr

/-- The answer of a step or of a meaning. -/
abbrev Result := Host.Outcome State Fault Refusal

/-- The machine right after reset with an empty image (rules R35, R180), for any reset values of registers 0 to 6 and
of the stack pointer: the parameters `GPR_INIT` and `SP_INIT` of rule R5, seven separate bytes as rule R36 allows. -/
def State.resetWith (gprs : Vector Byte 7) (sp : Byte) : State where
  regs  := gprs.push sp
  pc    := 0
  mem   := []
  run   := .running
  fault := .zero
  out   := []

/-- The machine right after reset, nothing loaded, with the default parameters (rule R35).
The values of the registers are DESIGN CHOICE (log entry 3). -/
def State.reset : State := State.resetWith (Vector.replicate 7 Config.gprInit) Config.spInit

end Sys2Proof.Machine
end

