-- ==== Sys2Proof/Machine/Ops.lean ====
section
/-! DEFINITION. The named operations over memory, registers, program counter, output and run state, and the entry of
a fault. -/

namespace Sys2Proof.Machine

/-- What an unlisted cell reads as: memory is "zero-initialized" (rule R29). -/
def Memory.unlisted : Byte := 0

/-- Addresses rising from `lo`, all below 256, no listed cell equal to what an unlisted one reads as. -/
def Memory.wfFrom : Nat → Memory → Bool
  | _, [] => true
  | lo, (a, v) :: rest => decide (lo ≤ a) && decide (a < 256) && decide (v ≠ Memory.unlisted) && Memory.wfFrom (a + 1) rest

/-- Memory is in its canonical form (log entry 14). -/
def Memory.wf (m : Memory) : Bool := Memory.wfFrom 0 m

/-- The byte at address `a`. -/
def Memory.read : Memory → Nat → Byte
  | [], _ => Memory.unlisted
  | (b, w) :: rest, a => if b = a then w else Memory.read rest a

/-- Memory with the byte `v` at address `a`, in canonical form again: a cell that comes to hold what an unlisted one
reads as is taken out. -/
def Memory.write : Memory → Nat → Byte → Memory
  | [], a, v => if v = Memory.unlisted then [] else [(a, v)]
  | (b, w) :: rest, a, v =>
    if a < b then (if v = Memory.unlisted then (b, w) :: rest else (a, v) :: (b, w) :: rest)
    else if a = b then (if v = Memory.unlisted then rest else (a, v) :: rest)
    else (b, w) :: Memory.write rest a v

/-- `MemRead(a, 1)`: total, no side effect (rules R8, R41). -/
def State.memRead (s : State) (a : Addr) : Byte := Memory.read s.mem a.toNat

/-- `MemWrite(a, 1, v)`: changes exactly one cell (rules R8, R41). -/
def State.memWrite (s : State) (a : Addr) (v : Byte) : State := { s with mem := Memory.write s.mem a.toNat v }

/-- `x[r]` (rules R7, R146). -/
def State.getReg (s : State) (r : RegIdx) : Byte := s.regs[r]

/-- `x[r] <- v`; no register is hardwired (rules R7, R21, R146). -/
def State.setReg (s : State) (r : RegIdx) (v : Byte) : State := { s with regs := s.regs.set r v }

/-- `SP`, register 7 (rules R7, R22). -/
def State.sp (s : State) : Byte := s.getReg spIdx

/-- `x[7] <- (x[7] - 1) mod 256` (rules R24, R110; decision D5, log entry 7). -/
def State.decSp (s : State) : State := s.setReg spIdx (s.sp - 1)

/-- `x[7] <- (x[7] + 1) mod 256` (rules R24, R111; decision D5, log entry 7). -/
def State.incSp (s : State) : State := s.setReg spIdx (s.sp + 1)

/-- `pc <- t` (rule R7). -/
def State.setPc (s : State) (t : Addr) : State := { s with pc := t }

/-- `pc + 1 + n`, the address after an instruction with `n` operands, as a byte (rule R87). -/
def State.nextPc (s : State) (n : Nat) : Addr := s.pc + BitVec.ofNat 8 (1 + n)

/-- The program-counter increment of a sequential instruction with `n` operands (rules R27, R87). -/
def State.advance (s : State) (n : Nat) : State := s.setPc (s.nextPc n)

/-- `Emit(v)` (rule R10). -/
def State.emit (s : State) (v : Byte) : State := { s with out := s.out ++ [v] }

/-- `run <- HALTED` (rule R122). -/
def State.halt (s : State) : State := { s with run := .halted }

/-- The fault record of an exception raised at `pc` (rules R32, R160; decision D11, log entry 8). -/
def Exception.record (pc : Addr) : Exception → FaultRecord
  | .unknownOpcode b        => ⟨.unknownOpcode, .mem, pc, b⟩
  | .addressOutOfRangeMem o => ⟨.addressOutOfRange, .mem, pc, o⟩
  | .addressOutOfRangeReg b => ⟨.addressOutOfRange, .reg, pc, b⟩
  | .unsupportedOperation k => ⟨.unsupportedOperation, .mem, pc, k.setWidth 8⟩
  | .divideByZero           => ⟨.divideByZero, .mem, pc, 0⟩

/-- Fault entry, exactly as rule R168 gives it: the record is filled, `run` becomes FAULTED, and memory, registers,
`pc` and `out` are unchanged (decision D10, log entry 4). There is no return from a fault (rule R169), so no
operation for one stands beside this. -/
def State.raise (s : State) (e : Exception) : State := { s with run := .faulted, fault := e.record s.pc }

/-- The host load port, one write while `rst` is high (rule R145): a memory write. -/
def State.loadPort (s : State) (a : Addr) (v : Byte) : State := s.memWrite a v

/-- The load port used for the bytes of an image in order, from address `a` up (rules R145, R180). -/
def State.loadFrom (s : State) : Nat → List Byte → State
  | _, []      => s
  | a, v :: vs => (s.loadPort (BitVec.ofNat 8 a) v).loadFrom (a + 1) vs

/-- Bytes stored from address `a` up; those that would lie above address 255 are left out. -/
def State.placeAt (s : State) : Nat → List Byte → State
  | _, []      => s
  | a, v :: vs => if a < 256 then (s.memWrite (BitVec.ofNat 8 a) v).placeAt (a + 1) vs else s

/-- Why the host does not start the core (rules R153, R154, R175). `UsageError` and `ProgramNotFound` belong to the
command line, outside the model (rules R4, R156). -/
inductive LoadError where
  /-- A token of the image text is no binary literal of value 0 to 255; `line` counts the text's lines from 1. -/
  | malformedLiteral (line : Nat)
  /-- The image has more than 256 bytes (decision D8, log entry 12). -/
  | imageTooLarge
deriving DecidableEq, Repr

/-- Construction of the machine followed by the load (rules R180, R183, R184), for any reset values of the registers.
An image that does not fit is rejected and the core never starts (rule R154). -/
def bootWith (gprs : Vector Byte 7) (sp : Byte) (image : List Byte) : Except LoadError State :=
  if image.length ≤ 256 then .ok ((State.resetWith gprs sp).loadFrom 0 image) else .error .imageTooLarge

/-- Boot with the default parameters. -/
def boot (image : List Byte) : Except LoadError State :=
  bootWith (Vector.replicate 7 Config.gprInit) Config.spInit image

end Sys2Proof.Machine
end

