-- ==== Sys2Proof/Machine/Operands.lean ====
section
/-! DEFINITION. Fetch, the two checks that stand before every effect, and the operand forms: a register-index byte
and an immediate byte are the only ones (rules R61, R63, R81 to R85). -/

namespace Sys2Proof.Machine

/-- Fetch: `op <- MemRead(pc, 1)`, afresh at every step (rules R52, R81). -/
def State.fetchOpcode (s : State) : Byte := s.memRead s.pc

/-- The bytes after the opcode that exist, at most two: addresses do not wrap (rules R42, R83). Reading them before
the check of rule R85 is not observable (rules R41, R45; log entry 5). -/
def State.operandWindow (s : State) : List Byte :=
  if s.pc.toNat + 2 < 256 then [s.memRead (s.pc + 1), s.memRead (s.pc + 2)]
  else if s.pc.toNat + 1 < 256 then [s.memRead (s.pc + 1)]
  else []

/-- The exception of the program-counter range check of an instruction with `n` operands (rules R85, R163). -/
def State.rangeException (s : State) (n : Nat) : Exception :=
  .addressOutOfRangeMem (BitVec.ofNat 8 (s.pc.toNat + 1 + n - 256))

/-- The program-counter range check of an instruction with `n >= 1` operands (rule R85; decision D4, log entry 6):
it comes before every other check of the instruction. -/
def checkRange (n : Nat) (s : State) (k : Result) : Result :=
  if s.pc.toNat + 1 + n > 255 then .next (s.raise (s.rangeException n)) else k

/-- The register a register-index byte selects, if it is valid; no masking (rules R25, R63). -/
def regOf? (b : Byte) : Option RegIdx :=
  if h : b.toNat < 8 then some ⟨b.toNat, h⟩ else none

/-- The register-index check of one operand byte (rule R84; decision D4, log entry 6). -/
def checkReg (b : Byte) (s : State) (k : RegIdx → Result) : Result :=
  match regOf? b with
  | some r => k r
  | none   => .next (s.raise (.addressOutOfRangeReg b))

/-- What the step does when the bytes at `pc` are no whole instruction: `UnknownOpcode` (rule R82), or the range
check's fault, since operand bytes that do not exist lie above 255 (rule R85). -/
def rejectException (s : State) : Reject → Exception
  | .unknownOpcode b   => .unknownOpcode b
  | .operandsMissing n => s.rangeException n

end Sys2Proof.Machine
end

