-- ==== Sys2Proof/Machine/Alu.lean ====
section
/-! DEFINITION. The ALU block and the two instructions that use it, MUL and ADD (spec/42_alu.md). The block is
modelled whole: SUB, DIV and its two errors are reached by no instruction (rules R101, R104, R105, R108). -/

namespace Sys2Proof.Machine

/-- What the ALU is asked for (rule R101): the four named operations, and everything else. -/
inductive AluOp where
  | add
  | sub
  | mul
  | div
  | other (sel : BitVec 4)
deriving DecidableEq, Repr

/-- The operation a 4-bit select stands for (rule R101). PRESUMED numbers (decision D13, log entry 10). -/
def aluOpOf (sel : BitVec 4) : AluOp :=
  if sel = 0b0000 then .add
  else if sel = 0b0001 then .sub
  else if sel = 0b0010 then .mul
  else if sel = 0b0011 then .div
  else .other sel

/-- The select the decoder drives for ADD (rule R101). -/
def selAdd : BitVec 4 := 0b0000

/-- The select the decoder drives for MUL (rule R101). -/
def selMul : BitVec 4 := 0b0010

/-- The result `r` of the ALU for the inputs `p = x[dst]` and `q = x[src]`, or its error (rules R100 to R105, R108).
All values are unsigned and wrap modulo 256; no flag and no carry is produced (rule R109).
SUB and DIV are PRESUMED (decisions D14, D15, log entry 10). -/
def alu (sel : BitVec 4) (p q : Byte) : Except Exception Byte :=
  match aluOpOf sel with
  | .add     => .ok (BitVec.ofNat 8 (p.toNat + q.toNat))
  | .mul     => .ok (BitVec.ofNat 8 (p.toNat * q.toNat))
  | .sub     => .ok (BitVec.ofInt 8 ((p.toNat : Int) - (q.toNat : Int)))
  | .div     => if q = 0 then .error .divideByZero else .ok (BitVec.ofNat 8 (p.toNat / q.toNat))
  | .other k => .error (.unsupportedOperation k)

/-- `apply(operation, destination_register, source_register)` in the core (rule R100): both registers are read
before the result is written; on an error nothing is written and the fault is raised (rules R105, R108). -/
def aluApply (sel : BitVec 4) (dst src : RegIdx) (s : State) (k : State → Result) : Result :=
  match alu sel (s.getReg dst) (s.getReg src) with
  | .ok r    => k (s.setReg dst r)
  | .error e => .next (s.raise e)

/-- The shape of the two-register instructions: the checks, the ALU, the increment by 3 (rules R84, R85, R87). -/
def execRR (sel : BitVec 4) (regA regB : Byte) (s : State) : Result :=
  checkRange 2 s <| checkReg regA s fun a => checkReg regB s fun b =>
    aluApply sel a b s fun t => .next (t.advance 2)

/-- MUL (rule R106): `x[a] <- (x[a] * x[b]) mod 256; pc <- pc + 3`. -/
def execMul (regA regB : Byte) (s : State) : Result := execRR selMul regA regB s

/-- ADD (rule R107): `x[a] <- (x[a] + x[b]) mod 256; pc <- pc + 3`. -/
def execAdd (regA regB : Byte) (s : State) : Result := execRR selAdd regA regB s

end Sys2Proof.Machine
end

