-- ==== Sys2Proof/Machine/Stack.lean ====
section
/-! DEFINITION. PUSH and POP (spec/43_stack.md). Each line of the pseudocode sees the writes of the lines before it
(rule R11), which is what makes PUSH R7 and POP R7 what they are (rule R189). -/

namespace Sys2Proof.Machine

/-- `MemWrite(x[7], 1, v)`: the store at the stack pointer as it is now (rules R110, R120). -/
def State.storeTop (s : State) (v : Byte) : State := s.memWrite s.sp v

/-- `MemRead(x[7], 1)`: the load at the stack pointer as it is now (rules R111, R121). -/
def State.loadTop (s : State) : Byte := s.memRead s.sp

/-- PUSH (rule R110): decrement `SP`, store `x[reg]` read after the decrement, `pc <- pc + 2`. -/
def execPush (reg : Byte) (s : State) : Result :=
  checkRange 1 s <| checkReg reg s fun r => .next ((s.decSp.storeTop (s.decSp.getReg r)).advance 1)

/-- POP (rule R111): load the top into `x[reg]`, increment `SP` as it is after the load, `pc <- pc + 2`. -/
def execPop (reg : Byte) (s : State) : Result :=
  checkRange 1 s <| checkReg reg s fun r => .next ((s.setReg r s.loadTop).incSp.advance 1)

end Sys2Proof.Machine
end

