-- ==== Sys2Proof/Machine/Control.lean ====
section
/-! DEFINITION. CALL, RET and HLT (spec/44_control.md): the only instructions that assign `pc` or leave it alone. -/

namespace Sys2Proof.Machine

/-- CALL (rule R120): decrement `SP`, store `pc + 2`, jump to `x[reg]` read after the decrement. -/
def execCall (reg : Byte) (s : State) : Result :=
  checkRange 1 s <| checkReg reg s fun r =>
    .next ((s.decSp.storeTop (s.nextPc 1)).setPc (s.decSp.getReg r))

/-- RET (rule R121): jump to the byte at the stack top, increment `SP`. No operand, so no check: it may stand at
address 255 (rule R85). -/
def execRet (s : State) : Result := .next ((s.setPc s.loadTop).incSp)

/-- HLT (rule R122): `run <- HALTED`, nothing else; `pc` keeps the address of the HLT (decision D9, log entry 9). -/
def execHlt (s : State) : Result := .next s.halt

end Sys2Proof.Machine
end

