-- ==== Sys2Proof/Machine/LoadPrint.lean ====
section
/-! DEFINITION. LDI and PRN (spec/41_load_and_print.md). -/

namespace Sys2Proof.Machine

/-- LDI (rule R90): `x[reg] <- imm8; pc <- pc + 3`. -/
def execLdi (reg imm8 : Byte) (s : State) : Result :=
  checkRange 2 s <| checkReg reg s fun r => .next ((s.setReg r imm8).advance 2)

/-- PRN (rule R91): `Emit(x[reg]); pc <- pc + 2`. -/
def execPrn (reg : Byte) (s : State) : Result :=
  checkRange 1 s <| checkReg reg s fun r => .next ((s.emit (s.getReg r)).advance 1)

end Sys2Proof.Machine
end

