-- ==== Sys2Proof/Machine/Step.lean ====
section
/-! DEFINITION. One step: fetch, decode, execute (rules R80 to R88), and the placing of one instruction where the
next step fetches it. -/

namespace Sys2Proof.Machine

/-- The step function of rule R88 for any opcode map (rule R66). A step is defined only when `run` is RUNNING
(rules R31, R80; log entry 4). The checks of rules R84 and R85 stand in the meanings; an instruction whose operand
bytes would lie above address 255 is rejected by the decoder and raises the fault of rule R85. -/
def stepWith (m : OpcodeMap) (s : State) : Host.Outcome State Fault Refusal :=
  match s.run with
  | .halted  => .fault .noStepHalted
  | .faulted => .fault .noStepFaulted
  | .running =>
    match decodeAtWith m s.fetchOpcode s.operandWindow with
    | .ok (i, _) => exec i s
    | .error r   => .next (s.raise (rejectException s r))

/-- The step with the default opcode map. -/
def step (s : State) : Host.Outcome State Fault Refusal := stepWith Config.opcodeMap s

/-- `s` with the instruction whose bits are `w` stored at `pc` and the bytes after it, where `step` fetches
(log entry 11). Bytes that would lie above address 255 do not exist and are left out. -/
def State.withFetchWord (s : State) (nbits w : Nat) : State :=
  s.placeAt s.pc.toNat (tableBytes nbits w)

end Sys2Proof.Machine
end

