-- ==== Sys2Proof/Machine/Flags.lean ====
section
/-! DEFINITION. The machine has no condition flags: no instruction produces or reads one (rule R34), so there is no
flag computation. The only status is the status port, which the host reads and no instruction does (rules R32,
R144). -/

namespace Sys2Proof.Machine

/-- The outputs of the status port (rule R144), with the widths the rule gives them. -/
structure StatusPort where
  halted     : Bool
  faulted    : Bool
  faultCause : BitVec 3
  faultSpace : BitVec 1
  faultAddr  : BitVec 8
  faultVal   : BitVec 8
deriving DecidableEq, Repr

/-- The code of a cause (rules R32, R160; decision D11, log entry 8). -/
def Cause.code : Cause → BitVec 3
  | .none                 => 0
  | .unknownOpcode        => 1
  | .addressOutOfRange    => 2
  | .unsupportedOperation => 3
  | .divideByZero         => 4

/-- The bit of a space (rule R32). -/
def Space.bit : Space → BitVec 1
  | .mem => 0
  | .reg => 1

/-- What the status port shows of a state (rule R144). -/
def State.statusPort (s : State) : StatusPort where
  halted     := decide (s.run = .halted)
  faulted    := decide (s.run = .faulted)
  faultCause := s.fault.cause.code
  faultSpace := s.fault.space.bit
  faultAddr  := s.fault.addr
  faultVal   := s.fault.val

end Sys2Proof.Machine
end

