-- ==== Sys2Proof/Machine/Image.lean ====
section
/-! DEFINITION. The program image text and its loader (rules R150 to R155): host side, outside the core by rule R4,
kept so that an image can be written as text. -/

namespace Sys2Proof.Machine

/-- The lines of a text: a line ends at a line feed. -/
def splitLines : List Char → List (List Char)
  | []      => [[]]
  | c :: cs =>
    if c = '\n' then [] :: splitLines cs
    else
      match splitLines cs with
      | []      => [[c]]
      | l :: ls => (c :: l) :: ls

/-- The part of a line before the first comment marker (rule R151). -/
def stripComment (marker : Char) (line : List Char) : List Char := line.takeWhile (· ≠ marker)

/-- White space around a token: DESIGN CHOICE of characters (log entry 12). -/
def isBlank (c : Char) : Bool := c = ' ' || c = '\t' || c = '\r'

/-- Surrounding white space removed (rules R150, R151). -/
def trim (cs : List Char) : List Char := ((cs.dropWhile isBlank).reverse.dropWhile isBlank).reverse

/-- The number a string of `0` and `1` denotes after `acc`, most significant digit first; none for any other
character (rule R153). -/
def binaryFrom : Nat → List Char → Option Nat
  | acc, []      => some acc
  | acc, c :: cs =>
    if c = '0' then binaryFrom (2 * acc) cs
    else if c = '1' then binaryFrom (2 * acc + 1) cs
    else none

/-- A literal: a non-empty string of `0` and `1` of value 0 to 255, whatever its length (rule R153). -/
def parseLiteral (token : List Char) : Option Byte :=
  match token with
  | []      => none
  | c :: cs =>
    match binaryFrom 0 (c :: cs) with
    | some n => if n < 256 then some (BitVec.ofNat 8 n) else none
    | none   => none

/-- The bytes of the lines from line number `n` on: an empty line contributes none (rules R150, R151); the first
malformed token rejects the image, with its line (rule R153). -/
def parseLines (marker : Char) : Nat → List (List Char) → Except LoadError (List Byte)
  | _, [] => .ok []
  | n, l :: ls =>
    match trim (stripComment marker l) with
    | []      => parseLines marker (n + 1) ls
    | c :: cs =>
      match parseLiteral (c :: cs) with
      | none   => .error (.malformedLiteral n)
      | some b =>
        match parseLines marker (n + 1) ls with
        | .ok bs   => .ok (b :: bs)
        | .error e => .error e

/-- The image bytes of a text (rules R150, R151), for any comment marker (rule R152). -/
def parseImageWith (marker : Char) (text : List Char) : Except LoadError (List Byte) :=
  parseLines marker 1 (splitLines text)

/-- The eight binary digits of a byte, most significant first, as the programmer writes it (rules R72, R155). -/
def binaryText (b : Byte) : List Char :=
  (List.range 8).map fun k => if b.getLsbD (7 - k) then '1' else '0'

/-- A line of image text: a byte, a comment behind the marker, the line feed (rules R150, R155). -/
def imageLine (marker : Char) (b : Byte) (comment : List Char) : List Char :=
  binaryText b ++ ' ' :: marker :: comment ++ ['\n']

/-- The loader and the boot, for any comment marker and any reset values (rule R5): a text that is no image never
starts the core (rules R153, R154, R184). -/
def bootTextWith (marker : Char) (gprs : Vector Byte 7) (sp : Byte) (text : List Char) : Except LoadError State :=
  match parseImageWith marker text with
  | .ok image => bootWith gprs sp image
  | .error e  => .error e

/-- The loader and the boot with the default parameters. -/
def bootText (text : List Char) : Except LoadError State :=
  bootTextWith Config.commentMarker (Vector.replicate 7 Config.gprInit) Config.spInit text

end Sys2Proof.Machine
end

