-- ==== Sys2Proof/Machine/Output.lean ====
section
/-! DEFINITION. How the host renders the output stream (rule R148): host side, a function of `out` alone. Text is a
list of ASCII codes. -/

namespace Sys2Proof.Machine

/-- The ASCII code of a decimal digit. -/
def digit (d : Nat) : Byte := BitVec.ofNat 8 (48 + d)

/-- The shortest decimal representation of a byte: no sign, no leading zeros, no padding (rule R148). -/
def decimal (v : Byte) : List Byte :=
  if v.toNat < 10 then [digit v.toNat]
  else if v.toNat < 100 then [digit (v.toNat / 10), digit (v.toNat % 10)]
  else [digit (v.toNat / 100), digit (v.toNat / 10 % 10), digit (v.toNat % 10)]

/-- Each byte of the stream in order, its decimal text followed by the line terminator (rule R148). -/
def renderWith (terminator : List Byte) (out : List Byte) : List Byte :=
  out.flatMap fun v => decimal v ++ terminator

/-- Rendering with the default terminator. PRESUMED (decision D16, log entry 13). -/
def render (out : List Byte) : List Byte := renderWith Config.lineTerminator out

end Sys2Proof.Machine
end

