-- ==== Sys2Proof/Machine/Run.lean ====
section
/-! DEFINITION. The run (rule R89): steps taken while `run` is RUNNING, under a fuel bound. -/

namespace Sys2Proof.Machine

/-- The state after at most `k` steps under an opcode map (rule R5): the run stops where no step is defined and the
state is then frozen (rules R31, R89). -/
def runForWith (m : OpcodeMap) : Nat → State → State
  | 0, s => s
  | k + 1, s =>
    match stepWith m s with
    | .next t    => runForWith m k t
    | .fault _   => s
    | .refused _ => s

/-- The run with the default opcode map. -/
def runFor (k : Nat) (s : State) : State := runForWith Config.opcodeMap k s

end Sys2Proof.Machine
end

