-- ==== Sys2Proof/Machine/Ports.lean ====
section
/-! DEFINITION. The output port and the memory port as functions of the state (rules R140 to R143, R45): what one
step sends out, for any opcode map (rule R5); the names without `With` use the default. The model has no clock (rule R190; log entry 15). The status port is in Machine/Flags.lean, the load
port in Machine/Ops.lean. -/

namespace Sys2Proof.Machine

/-- The output port during the step from `s` (rule R143): `some v` is `out_valid` high with `out_data` = `v`, `none`
is `out_valid` low (`out_data` then has no meaning). -/
def outPortWith (m : OpcodeMap) (s : State) : Option Byte :=
  match stepWith m s with
  | .next t    => (t.out.drop s.out.length).head?
  | .fault _   => none
  | .refused _ => none

/-- The values sampled on the output port in `k` steps, in time order (rule R143). -/
def outSamplesWith (m : OpcodeMap) : Nat → State → List Byte
  | 0, _ => []
  | k + 1, s =>
    match stepWith m s with
    | .next t    => (outPortWith m s).toList ++ outSamplesWith m k t
    | .fault _   => []
    | .refused _ => []

/-- The output port with the default opcode map. -/
def outPort (s : State) : Option Byte := outPortWith Config.opcodeMap s

/-- The output port's samples with the default opcode map. -/
def outSamples (k : Nat) (s : State) : List Byte := outSamplesWith Config.opcodeMap k s

/-- One access on the memory port (rule R142). -/
inductive MemAccess where
  | read (a : Addr)
  | write (a : Addr) (v : Byte)
deriving DecidableEq, Repr

/-- The stack access of an instruction whose checks have passed (rule R45). -/
def dataAccesses (i : Instr) (s : State) : List MemAccess :=
  match i with
  | .ldi _ _ => []
  | .prn _   => []
  | .mul _ _ => []
  | .add _ _ => []
  | .push r  =>
    match regOf? r with
    | some x => [.write (s.sp - 1) (s.decSp.getReg x)]
    | none   => []
  | .pop _   => [.read s.sp]
  | .call _  => [.write (s.sp - 1) (s.nextPc 1)]
  | .ret     => [.read s.sp]
  | .hlt     => []

/-- The accesses of the step from `s`, in order (rule R45): the opcode; the operands, once the opcode is matched and
the range check has passed (rules R83, R85; decision D22); the stack access, once the register check has passed. -/
def stepAccessesWith (m : OpcodeMap) (s : State) : List MemAccess :=
  match s.run with
  | .halted  => []
  | .faulted => []
  | .running =>
    .read s.pc ::
      match decodeAtWith m s.fetchOpcode s.operandWindow with
      | .error _   => []
      | .ok (i, _) =>
        if i.operandCount ≠ 0 ∧ s.pc.toNat + 1 + i.operandCount > 255 then []
        else (List.range i.operandCount).map (fun k => .read (s.nextPc k))
          ++ (if i.wf then dataAccesses i s else [])

/-- The accesses with the default opcode map. -/
def stepAccesses (s : State) : List MemAccess := stepAccessesWith Config.opcodeMap s

/-- What one access does to the state: a read does nothing, a write stores (rules R41, R142). -/
def MemAccess.apply (s : State) : MemAccess → State
  | .read _    => s
  | .write a v => s.memWrite a v

end Sys2Proof.Machine
end

