-- ==== Sys2Proof/Safety.lean ====
section
/-! DEFINITION. What counts as a normal execution, a success and a failure, and the invariant of the machine, in the
terms statements use. -/

namespace Sys2Proof.Machine

/-- The conditions on the state and the operands alone under which an instruction performs its effect (rule R86): the
range check of rule R85, asked of instructions with operands only, and the register check of rule R84. -/
def executesNormally (i : Instr) (s : State) : Bool :=
  (i.operandCount == 0 || decide (s.pc.toNat + 1 + i.operandCount ≤ 255)) && i.wf

/-- The run has succeeded: it ended by HLT (rule R170). -/
def State.succeeded (s : State) : Bool := decide (s.run = .halted)

/-- The run has failed: it ended in a fault (rule R170). -/
def State.failed (s : State) : Bool := decide (s.run = .faulted)

/-- No fault is recorded (rule R170). -/
def State.noFaultRecorded (s : State) : Bool := decide (s.fault.cause = .none)

/-- The records a program can leave (rules R32, R160, R162, R163): the two ALU faults are reached by none. -/
abbrev FaultRecord.Reachable (f : FaultRecord) : Prop :=
  f.cause = .unknownOpcode ∧ f.space = .mem ∨
  f.cause = .addressOutOfRange ∧ f.space = .mem ∧ 253 ≤ f.addr.toNat ∧ f.val.toNat ≤ 2 ∨
  f.cause = .addressOutOfRange ∧ f.space = .reg ∧ 8 ≤ f.val.toNat

/-- The invariant of the machine: memory is in canonical form; while `run` is not FAULTED the fault record holds its
reset value (rule R32); once it is FAULTED the record is one that a program can leave, and `addr` is the `pc` of the
faulting instruction (rules R160, R168). -/
abbrev State.Inv (s : State) : Prop :=
  Memory.wf s.mem = true ∧ (s.run ≠ .faulted → s.fault = .zero) ∧
  (s.run = .faulted → s.fault.Reachable ∧ s.fault.addr = s.pc)

/-- Every register but those listed is unchanged. -/
def KeepsRegsExcept (l : List RegIdx) (s t : State) : Prop := ∀ x : RegIdx, x ∉ l → t.getReg x = s.getReg x

/-- Every byte of memory is unchanged. -/
def KeepsMemory (s t : State) : Prop := ∀ d : Addr, t.memRead d = s.memRead d

/-- Every byte of memory but the one at `a` is unchanged. -/
def KeepsMemoryExcept (a : Addr) (s t : State) : Prop := ∀ d : Addr, d ≠ a → t.memRead d = s.memRead d

/-- The run state and the fault record are unchanged. -/
def KeepsRunAndFault (s t : State) : Prop := t.run = s.run ∧ t.fault = s.fault

/-- The answer `r` of an instruction or a step from `s` is the fault of cause `c` in space `sp`, entered with nothing
but `run` and `fault` changed (rules R9, R168). -/
def FaultsWith (c : Cause) (sp : Space) (s : State) (r : Result) : Prop :=
  ∃ t, r = .next t ∧ t.run = .faulted ∧ t.fault.cause = c ∧ t.fault.space = sp ∧
    t = { s with run := t.run, fault := t.fault }

/-- The registers an instruction writes, by the table of rule R23. -/
def writtenRegs : Instr → List RegIdx
  | .ldi r _ => (regOf? r).toList
  | .prn _   => []
  | .mul a _ => (regOf? a).toList
  | .add a _ => (regOf? a).toList
  | .push _  => [spIdx]
  | .pop r   => spIdx :: (regOf? r).toList
  | .call _  => [spIdx]
  | .ret     => [spIdx]
  | .hlt     => []

/-- The address an instruction stores to: the decremented stack pointer for PUSH and CALL, none for the others
(rules R45, R110, R120). -/
def storeAddress (i : Instr) (s : State) : Option Addr :=
  match i with
  | .ldi _ _ => none
  | .prn _   => none
  | .mul _ _ => none
  | .add _ _ => none
  | .push _  => some s.decSp.sp
  | .pop _   => none
  | .call _  => some s.decSp.sp
  | .ret     => none
  | .hlt     => none

/-- The instruction whose bytes stand at `pc` and the bytes after it, as the decoder reads them (rules R81 to R83). -/
def DecodesTo (m : OpcodeMap) (s : State) (i : Instr) : Prop :=
  ∃ rest, decodeAtWith m s.fetchOpcode s.operandWindow = .ok (i, rest)

/-- The bytes `bs` stand in memory from address `a` up, all of them below address 256. -/
def State.holdsAt (s : State) : Nat → List Byte → Bool
  | _, []      => true
  | a, b :: bs => decide (a < 256) && decide (s.memRead (BitVec.ofNat 8 a) = b) && s.holdsAt (a + 1) bs

/-- A run in which every CALL has its own RET, nested at most `d` deep (rule R123). A `quiet` step is any step that
leaves the stack pointer and memory as it found them. The opcode map is any (rule R5). -/
inductive Balanced (m : OpcodeMap) : Nat → State → State → Prop where
  | done (d : Nat) (s : State) : Balanced m d s s
  | quiet {d : Nat} {s u t : State} (h : stepWith m s = .next u) (hsp : u.sp = s.sp) (hmem : u.mem = s.mem)
      (rest : Balanced m d u t) : Balanced m d s t
  | pair {d : Nat} {s u v w t : State} {reg : Byte} (hc : DecodesTo m s (.call reg))
      (hn : executesNormally (.call reg) s = true) (hcall : stepWith m s = .next u) (body : Balanced m d u v)
      (hr : DecodesTo m v .ret) (hret : stepWith m v = .next w) (rest : Balanced m (d + 1) w t) :
      Balanced m (d + 1) s t

end Sys2Proof.Machine
end

