-- ==== Sys2Proof/Certificates/Slice0/Obligations.lean ====
section
/-! DEFINITION. The statements for the provers. Each docstring says which rule of spec/ the statement formalises;
where one rests on a decision of the spec (D<n>) or on a log entry, it says so. -/

open Sys2Proof Sys2Proof.Machine

/-! ## Reset, boot and the program image -/

/-- Rule R35. The values of the registers are the spec's decisions D6 and D7 (log entry 3), those of the fault record
decision D11 (log entry 8). -/
def Obligations.ResetHoldsTheListedValues : Prop :=
  (∀ a : Addr, State.reset.memRead a = 0) ∧ (∀ r : RegIdx, r ≠ spIdx → State.reset.getReg r = 0) ∧
  State.reset.sp = 0xF4 ∧ State.reset.pc = 0 ∧ State.reset.run = .running ∧
  State.reset.fault = ⟨.none, .mem, 0, 0⟩ ∧ State.reset.out = []

/-- Rule R180, for every value of the parameters `GPR_INIT` (each register its own byte) and `SP_INIT`. -/
def Obligations.BootLoadsTheImageOverZeroedMemory : Prop :=
  ∀ (gprs : Vector Byte 7) (sp : Byte) (image : List Byte), image.length ≤ 256 →
    ∃ s, bootWith gprs sp image = .ok s ∧
      (∀ (i : Nat) (h : i < image.length), s.memRead (BitVec.ofNat 8 i) = image[i]) ∧
      (∀ a : Addr, image.length ≤ a.toNat → s.memRead a = 0) ∧
      (∀ r : Fin 7, s.getReg r.castSucc = gprs[r]) ∧ s.sp = sp ∧
      s.pc = 0 ∧ s.fetchOpcode = s.memRead 0 ∧ s.run = .running ∧ s.fault = .zero ∧ s.out = []

/-- Rules R153, R154, by the spec's decisions D8 and D20 (log entry 12): no state comes out of a load that fails. -/
def Obligations.RejectedImagesNeverBoot : Prop :=
  ∀ (marker : Char) (gprs : Vector Byte 7) (sp : Byte),
    (∀ image : List Byte, 256 < image.length → bootWith gprs sp image = .error .imageTooLarge) ∧
    (∀ (text : List Char) (e : LoadError), parseImageWith marker text = .error e →
      bootTextWith marker gprs sp text = .error e) ∧
    (∀ (text : List Char) (image : List Byte), parseImageWith marker text = .ok image → 256 < image.length →
      bootTextWith marker gprs sp text = .error .imageTooLarge)

/-- Rules R150, R151, R153: bytes written one a line, each with a comment, are read back in order, and the text boots as
those bytes do, under any comment marker that is no binary digit and no line feed. The separating blank is one of the
characters of log entry 12. -/
def Obligations.ImageTextReadsBackItsBytes : Prop :=
  ∀ (marker : Char) (lines : List (Byte × List Char)), marker ≠ '0' → marker ≠ '1' → marker ≠ '\n' →
    (∀ l ∈ lines, '\n' ∉ l.2) →
    parseImageWith marker (lines.flatMap fun l => imageLine marker l.1 l.2) = .ok (lines.map (·.1)) ∧
    ∀ (gprs : Vector Byte 7) (sp : Byte),
      bootTextWith marker gprs sp (lines.flatMap fun l => imageLine marker l.1 l.2)
        = bootWith gprs sp (lines.map (·.1))

/-- Rule R185: only HLT ends a run normally; memory after the image faults; the empty image faults at once.
Under any map that rule R65 allows and any reset values. -/
def Obligations.OnlyHltEndsARunNormally : Prop :=
  (∀ (m : OpcodeMap) (s t : State), stepWith m s = .next t → t.run = .halted →
    s.run = .running ∧ s.fetchOpcode = m.hlt) ∧
  (∀ (m : OpcodeMap) (gprs : Vector Byte 7) (sp : Byte) (image : List Byte) (s₀ s : State), m.valid = true →
    bootWith gprs sp image = .ok s₀ → image.length ≤ s.pc.toNat → s.memRead s.pc = s₀.memRead s.pc →
    s.run = .running →
    stepWith m s = .next { s with run := .faulted, fault := ⟨.unknownOpcode, .mem, s.pc, 0⟩ }) ∧
  (∀ (m : OpcodeMap) (gprs : Vector Byte 7) (sp : Byte), m.valid = true →
    bootWith gprs sp [] = .ok (State.resetWith gprs sp) ∧
    stepWith m (State.resetWith gprs sp) =
      .next { State.resetWith gprs sp with run := .faulted, fault := ⟨.unknownOpcode, .mem, 0, 0⟩ })

/-! ## Memory -/

/-- Rule R41: a read returns the latest write to that cell or the reset value, and a write changes exactly one
cell and nothing else. -/
def Obligations.MemoryReadsTheLatestWrite : Prop :=
  (∀ s : State, Memory.wf s.mem = true → ∀ (a d : Addr) (v : Byte),
    (s.memWrite a v).memRead d = if d = a then v else s.memRead d) ∧
  (∀ (s : State) (a : Addr) (v : Byte), (s.memWrite a v).regs = s.regs ∧ (s.memWrite a v).pc = s.pc ∧
    (s.memWrite a v).out = s.out ∧ KeepsRunAndFault s (s.memWrite a v)) ∧
  (∀ (gprs : Vector Byte 7) (sp : Byte) (a : Addr), (State.resetWith gprs sp).memRead a = 0)

/-- The model's canonical form of memory (log entry 14): memories that read alike everywhere are one list. -/
def Obligations.MemoriesThatReadAlikeAreEqual : Prop :=
  ∀ m n : Memory, Memory.wf m = true → Memory.wf n = true →
    (∀ a : Nat, a < 256 → Memory.read m a = Memory.read n a) → m = n

/-! ## The ALU block -/

/-- Rule R102, for any select that stands for ADD. -/
def Obligations.AluAddIsTheSumModulo256 : Prop :=
  (∀ sel, aluOpOf sel = .add → ∀ p q : Byte, ∃ r, alu sel p q = .ok r ∧ r.toNat = (p.toNat + q.toNat) % 256) ∧
  aluOpOf selAdd = .add ∧ alu selAdd 250 10 = .ok 4

/-- Rule R103, for any select that stands for MUL: the low byte of the product, the same read as unsigned or as two's
complement. -/
def Obligations.AluMulIsTheProductModulo256 : Prop :=
  (∀ sel, aluOpOf sel = .mul → ∀ p q : Byte, ∃ r, alu sel p q = .ok r ∧ r.toNat = (p.toNat * q.toNat) % 256 ∧
    r = BitVec.ofInt 8 (p.toInt * q.toInt)) ∧
  aluOpOf selMul = .mul ∧ alu selMul 8 9 = .ok 72

/-- Rules R101, R104, R105, the spec's decisions D13 to D15 (log entry 10): the selects, SUB, DIV, and the zero divisor
in the core. -/
def Obligations.AluSubAndDivAndTheZeroDivisor : Prop :=
  (∀ p q : Byte, ∃ r, alu 0b0001 p q = .ok r ∧
    r.toNat = if q.toNat ≤ p.toNat then p.toNat - q.toNat else p.toNat + 256 - q.toNat) ∧
  (∀ p q : Byte, q ≠ 0 → ∃ r, alu 0b0011 p q = .ok r ∧ r.toNat = p.toNat / q.toNat) ∧
  (∀ (dst src : RegIdx) (s : State) (k : State → Result), s.getReg src = 0 →
    aluApply 0b0011 dst src s k = .next { s with run := .faulted, fault := ⟨.divideByZero, .mem, s.pc, 0⟩ }) ∧
  (∀ sel : BitVec 4, aluOpOf sel = if sel.toNat = 0 then .add else if sel.toNat = 1 then .sub
    else if sel.toNat = 2 then .mul else if sel.toNat = 3 then .div else .other sel)

/-- Rule R108: a select outside the four operations faults with nothing written, and no step of any program raises
that, under any opcode map. -/
def Obligations.UnsupportedSelectFaultsAndIsUnreachable : Prop :=
  (∀ (sel k : BitVec 4) (dst src : RegIdx) (s : State) (cont : State → Result), aluOpOf sel = .other k →
    aluApply sel dst src s cont =
      .next { s with run := .faulted, fault := ⟨.unsupportedOperation, .mem, s.pc, sel.setWidth 8⟩ }) ∧
  (∀ (m : OpcodeMap) (s t : State), stepWith m s = .next t → s.fault.cause ≠ .unsupportedOperation →
    t.fault.cause ≠ .unsupportedOperation)

/-- Rule R100: both inputs are read before the result is written, the result goes to the destination register and
nowhere else, and on an error no register is written. -/
def Obligations.AluWritesOnlyItsDestination : Prop :=
  (∀ (sel : BitVec 4) (dst src : RegIdx) (s : State) (r : Byte), alu sel (s.getReg dst) (s.getReg src) = .ok r →
    ∃ t, aluApply sel dst src s .next = .next t ∧ t.getReg dst = r ∧ KeepsRegsExcept [dst] s t ∧
      KeepsMemory s t ∧ t.pc = s.pc ∧ t.out = s.out ∧ KeepsRunAndFault s t) ∧
  (∀ (sel : BitVec 4) (dst src : RegIdx) (s : State) (e : Exception) (k : State → Result),
    alu sel (s.getReg dst) (s.getReg src) = .error e →
    ∃ t, aluApply sel dst src s k = .next t ∧ KeepsRegsExcept [] s t ∧ KeepsMemory s t ∧ t.pc = s.pc)

/-! ## The nine instructions -/

/-- Rule R90, whole: encoding under any map, effect, the two faults, and the document's property of LDI then PRN. -/
def Obligations.LdiLoadsTheImmediate : Prop :=
  (∀ (m : OpcodeMap) (a b : Byte), encodeWith m (.ldi a b) = [m.ldi, a, b]) ∧
  (∀ (s : State) (a b : Byte) (r : RegIdx), a.toNat = r.val → s.pc.toNat ≤ 252 →
    ∃ t, exec (.ldi a b) s = .next t ∧ t.getReg r = b ∧ KeepsRegsExcept [r] s t ∧ t.pc.toNat = s.pc.toNat + 3 ∧
      KeepsMemory s t ∧ t.out = s.out ∧ KeepsRunAndFault s t) ∧
  (∀ (s : State) (a b : Byte), 252 < s.pc.toNat → FaultsWith .addressOutOfRange .mem s (exec (.ldi a b) s)) ∧
  (∀ (s : State) (a b : Byte), s.pc.toNat ≤ 252 → 7 < a.toNat → FaultsWith .addressOutOfRange .reg s (exec (.ldi a b) s)) ∧
  (∀ (m : OpcodeMap) (s : State) (r v : Byte) (terminator : List Byte), m.valid = true → s.run = .running →
    r.toNat ≤ 7 → s.pc.toNat ≤ 250 →
    s.holdsAt s.pc.toNat (encodeWith m (.ldi r v) ++ encodeWith m (.prn r)) = true →
    (runForWith m 2 s).run = .running ∧ (runForWith m 2 s).out = s.out ++ [v] ∧
      renderWith terminator (runForWith m 2 s).out = renderWith terminator s.out ++ decimal v ++ terminator)

/-- Rule R91, whole: encoding under any map, effect, the two faults, two PRN in program order, the decimal texts it
names under any line terminator. -/
def Obligations.PrnEmitsTheRegister : Prop :=
  (∀ (m : OpcodeMap) (a : Byte), encodeWith m (.prn a) = [m.prn, a]) ∧
  (∀ (s : State) (a : Byte) (r : RegIdx), a.toNat = r.val → s.pc.toNat ≤ 253 →
    ∃ t, exec (.prn a) s = .next t ∧ t.out = s.out ++ [s.getReg r] ∧ t.pc.toNat = s.pc.toNat + 2 ∧
      KeepsRegsExcept [] s t ∧ KeepsMemory s t ∧ KeepsRunAndFault s t) ∧
  (∀ (s : State) (a : Byte), 253 < s.pc.toNat → FaultsWith .addressOutOfRange .mem s (exec (.prn a) s)) ∧
  (∀ (s : State) (a : Byte), s.pc.toNat ≤ 253 → 7 < a.toNat → FaultsWith .addressOutOfRange .reg s (exec (.prn a) s)) ∧
  (∀ (s t : State) (a b : Byte) (q r : RegIdx), a.toNat = q.val → b.toNat = r.val → s.pc.toNat ≤ 251 →
    exec (.prn a) s = .next t → ∃ u, exec (.prn b) t = .next u ∧ u.out = s.out ++ [s.getReg q, s.getReg r]) ∧
  (∀ terminator : List Byte, renderWith terminator [72] = [0x37, 0x32] ++ terminator ∧
    renderWith terminator [0] = [0x30] ++ terminator ∧ renderWith terminator [255] = [0x32, 0x35, 0x35] ++ terminator)

/-- Rule R106, whole: encoding under any map, effect, the faults in their order. -/
def Obligations.MulMultipliesIntoRegA : Prop :=
  (∀ (m : OpcodeMap) (a b : Byte), encodeWith m (.mul a b) = [m.mul, a, b]) ∧
  (∀ (s : State) (a b : Byte) (p q : RegIdx), a.toNat = p.val → b.toNat = q.val → s.pc.toNat ≤ 252 →
    ∃ t, exec (.mul a b) s = .next t ∧ (t.getReg p).toNat = ((s.getReg p).toNat * (s.getReg q).toNat) % 256 ∧
      KeepsRegsExcept [p] s t ∧ t.pc.toNat = s.pc.toNat + 3 ∧ KeepsMemory s t ∧ t.out = s.out ∧
      KeepsRunAndFault s t) ∧
  (∀ (s : State) (a b : Byte), 252 < s.pc.toNat → FaultsWith .addressOutOfRange .mem s (exec (.mul a b) s)) ∧
  (∀ (s : State) (a b : Byte), s.pc.toNat ≤ 252 → 7 < a.toNat → FaultsWith .addressOutOfRange .reg s (exec (.mul a b) s)) ∧
  (∀ (s : State) (a b : Byte), s.pc.toNat ≤ 252 → a.toNat ≤ 7 → 7 < b.toNat →
    FaultsWith .addressOutOfRange .reg s (exec (.mul a b) s))

/-- Rule R107, whole: encoding under any map, effect, the faults in their order. -/
def Obligations.AddAddsIntoRegA : Prop :=
  (∀ (m : OpcodeMap) (a b : Byte), encodeWith m (.add a b) = [m.add, a, b]) ∧
  (∀ (s : State) (a b : Byte) (p q : RegIdx), a.toNat = p.val → b.toNat = q.val → s.pc.toNat ≤ 252 →
    ∃ t, exec (.add a b) s = .next t ∧ (t.getReg p).toNat = ((s.getReg p).toNat + (s.getReg q).toNat) % 256 ∧
      KeepsRegsExcept [p] s t ∧ t.pc.toNat = s.pc.toNat + 3 ∧ KeepsMemory s t ∧ t.out = s.out ∧
      KeepsRunAndFault s t) ∧
  (∀ (s : State) (a b : Byte), 252 < s.pc.toNat → FaultsWith .addressOutOfRange .mem s (exec (.add a b) s)) ∧
  (∀ (s : State) (a b : Byte), s.pc.toNat ≤ 252 → 7 < a.toNat → FaultsWith .addressOutOfRange .reg s (exec (.add a b) s)) ∧
  (∀ (s : State) (a b : Byte), s.pc.toNat ≤ 252 → a.toNat ≤ 7 → 7 < b.toNat →
    FaultsWith .addressOutOfRange .reg s (exec (.add a b) s))

/-- Rule R110, whole: encoding under any map, effect with the decrement before the store (so PUSH R7 stores the new
stack pointer), the two faults. The stored address is `s.decSp.sp`, as the meaning computes it. -/
def Obligations.PushStoresBelowTheStackPointer : Prop :=
  (∀ (m : OpcodeMap) (a : Byte), encodeWith m (.push a) = [m.push, a]) ∧
  (∀ (s : State) (a : Byte) (r : RegIdx), Memory.wf s.mem = true → a.toNat = r.val → s.pc.toNat ≤ 253 →
    ∃ t, exec (.push a) s = .next t ∧ t.sp.toNat = (s.sp.toNat + 255) % 256 ∧
      t.memRead s.decSp.sp = (if r = spIdx then s.sp - 1 else s.getReg r) ∧ s.decSp.sp = t.sp ∧
      KeepsMemoryExcept s.decSp.sp s t ∧ KeepsRegsExcept [spIdx] s t ∧ t.pc.toNat = s.pc.toNat + 2 ∧
      t.out = s.out ∧ KeepsRunAndFault s t) ∧
  (∀ (s : State) (a : Byte), 253 < s.pc.toNat → FaultsWith .addressOutOfRange .mem s (exec (.push a) s)) ∧
  (∀ (s : State) (a : Byte), s.pc.toNat ≤ 253 → 7 < a.toNat → FaultsWith .addressOutOfRange .reg s (exec (.push a) s))

/-- Rule R111, whole: encoding under any map, effect with the load before the increment (so POP R7 increments the
byte it loaded), the two faults. -/
def Obligations.PopLoadsFromTheStackPointer : Prop :=
  (∀ (m : OpcodeMap) (a : Byte), encodeWith m (.pop a) = [m.pop, a]) ∧
  (∀ (s : State) (a : Byte) (r : RegIdx), a.toNat = r.val → s.pc.toNat ≤ 253 →
    ∃ t, exec (.pop a) s = .next t ∧ (r ≠ spIdx → t.getReg r = s.memRead s.sp) ∧
      t.sp.toNat = ((if r = spIdx then (s.memRead s.sp).toNat else s.sp.toNat) + 1) % 256 ∧
      KeepsRegsExcept [r, spIdx] s t ∧ KeepsMemory s t ∧ t.pc.toNat = s.pc.toNat + 2 ∧
      t.out = s.out ∧ KeepsRunAndFault s t) ∧
  (∀ (s : State) (a : Byte), 253 < s.pc.toNat → FaultsWith .addressOutOfRange .mem s (exec (.pop a) s)) ∧
  (∀ (s : State) (a : Byte), s.pc.toNat ≤ 253 → 7 < a.toNat → FaultsWith .addressOutOfRange .reg s (exec (.pop a) s))

/-- Rule R120, whole: encoding under any map, effect with the decrement first (so CALL R7 jumps to the cell that holds
the return address), the two faults. The stored address is `s.decSp.sp`, as the meaning computes it. -/
def Obligations.CallStoresTheReturnAddressAndJumps : Prop :=
  (∀ (m : OpcodeMap) (a : Byte), encodeWith m (.call a) = [m.call, a]) ∧
  (∀ (s : State) (a : Byte) (r : RegIdx), Memory.wf s.mem = true → a.toNat = r.val → s.pc.toNat ≤ 253 →
    ∃ t, exec (.call a) s = .next t ∧ t.sp.toNat = (s.sp.toNat + 255) % 256 ∧
      (t.memRead s.decSp.sp).toNat = s.pc.toNat + 2 ∧ s.decSp.sp = t.sp ∧
      t.pc = (if r = spIdx then s.sp - 1 else s.getReg r) ∧
      KeepsMemoryExcept s.decSp.sp s t ∧ KeepsRegsExcept [spIdx] s t ∧ t.out = s.out ∧ KeepsRunAndFault s t) ∧
  (∀ (s : State) (a : Byte), 253 < s.pc.toNat → FaultsWith .addressOutOfRange .mem s (exec (.call a) s)) ∧
  (∀ (s : State) (a : Byte), s.pc.toNat ≤ 253 → 7 < a.toNat → FaultsWith .addressOutOfRange .reg s (exec (.call a) s))

/-- Rule R121, whole: encoding under any map, effect in every state; RET has no fault and may stand at 255;
PUSH then RET jumps to the pushed register's value. -/
def Obligations.RetJumpsToTheStackTop : Prop :=
  (∀ m : OpcodeMap, encodeWith m .ret = [m.ret]) ∧
  (∀ s : State, ∃ t, exec .ret s = .next t ∧ t.pc = s.memRead s.sp ∧ t.sp.toNat = (s.sp.toNat + 1) % 256 ∧
    KeepsRegsExcept [spIdx] s t ∧ KeepsMemory s t ∧ t.out = s.out ∧ KeepsRunAndFault s t) ∧
  (∀ (s : State) (a : Byte) (r : RegIdx), Memory.wf s.mem = true → a.toNat = r.val → r ≠ spIdx →
    s.pc.toNat ≤ 253 →
    ∃ t u, exec (.push a) s = .next t ∧ exec .ret t = .next u ∧ u.pc = s.getReg r ∧ u.sp = s.sp)

/-- Rule R122, in every state. That `pc` keeps the address of the HLT is the spec's decision D9 (log entry 9). -/
def Obligations.HltHaltsAndChangesNothingElse : Prop :=
  (∀ m : OpcodeMap, encodeWith m .hlt = [m.hlt]) ∧
  (∀ s : State, ∃ t, exec .hlt s = .next t ∧ t.run = .halted ∧ t.pc = s.pc ∧ t.fault = s.fault ∧
    KeepsRegsExcept [] s t ∧ KeepsMemory s t ∧ t.out = s.out) ∧
  (∀ (m : OpcodeMap) (s : State), m.valid = true → s.run = .running → s.fetchOpcode = m.hlt →
    ∃ t, stepWith m s = .next t ∧ t.run = .halted ∧ t.pc = s.pc ∧ stepWith m t = .fault .noStepHalted)

/-! ## Frames of all instructions -/

/-- The table of rule R23, which registers each instruction writes, in whichever way the instruction ends. -/
def Obligations.EveryInstructionWritesOnlyItsRegisters : Prop :=
  ∀ (i : Instr) (s t : State), exec i s = .next t → KeepsRegsExcept (writtenRegs i) s t

/-- Rules R45, R52: only PUSH and CALL store, one byte at the decremented stack pointer; no other instruction
changes any byte of memory. -/
def Obligations.OnlyPushAndCallStore : Prop :=
  ∀ (i : Instr) (s t : State), Memory.wf s.mem = true → exec i s = .next t →
    (∀ a : Addr, storeAddress i s = some a → KeepsMemoryExcept a s t) ∧
    (storeAddress i s = none → KeepsMemory s t)

/-- Rule R86: once the checks have passed every instruction takes its effect and none faults; `run` moves by HLT
alone, `fault` not at all, `out` by PRN alone. -/
def Obligations.CheckedInstructionsComplete : Prop :=
  ∀ (i : Instr) (s : State), executesNormally i s = true →
    ∃ t, exec i s = .next t ∧ t.fault = s.fault ∧ t.run = (if i = .hlt then .halted else s.run) ∧
      ((∀ reg, i ≠ .prn reg) → t.out = s.out)

/-- Rules R84, R85 and the priority of rule R167, by the spec's decisions D4 and D12 (log entries 6, 8): an instruction
that does not pass its checks takes the fault of the first one it fails, at the instruction's own level. -/
def Obligations.UncheckedInstructionsFaultInOrder : Prop :=
  ∀ (i : Instr) (s : State),
    (i.operandCount ≠ 0 → 255 < s.pc.toNat + 1 + i.operandCount → exec i s =
      .next (s.raise (.addressOutOfRangeMem (BitVec.ofNat 8 (s.pc.toNat + 1 + i.operandCount - 256))))) ∧
    (s.pc.toNat + 1 + i.operandCount ≤ 255 → ∀ b, i.regOperands.find? (fun b => !validReg b) = some b →
      exec i s = .next (s.raise (.addressOutOfRangeReg b)))

/-- Rule R87: the sequential instructions add `1 + operand_count` without a carry, CALL and RET assign, HLT and a
failed check leave `pc` alone, and there is no other way it changes in a step. CALL's target is rule R120's: that it is
the decremented stack pointer for CALL R7 is the spec's own inference there ("derived: from the order of the three
effects"); `pc` after HLT is decision D9 (log entry 9), the checks are decision D4 (log entry 6). -/
def Obligations.PcChangesOnlyAsListed : Prop :=
  (∀ (i : Instr) (s t : State), exec i s = .next t → executesNormally i s = true →
    match i with
    | .call reg => ∀ r : RegIdx, reg.toNat = r.val → t.pc = s.decSp.getReg r
    | .ret      => t.pc = s.memRead s.sp
    | .hlt      => t.pc = s.pc
    | .ldi _ _ | .prn _ | .mul _ _ | .add _ _ | .push _ | .pop _ =>
      t.pc.toNat = s.pc.toNat + 1 + i.operandCount ∧ t.pc.toNat ≤ 255) ∧
  (∀ (m : OpcodeMap) (s t : State), stepWith m s = .next t → t.pc ≠ s.pc →
    ∃ i, DecodesTo m s i ∧ exec i s = .next t ∧ executesNormally i s = true)

/-- Rule R47: the stack may run over the program and round the ends of memory; neither is a fault. The byte stored is
that of rules R110 and R120: the new stack pointer for PUSH R7 is the spec's own inference in rule R110 ("derived: from
the order of the two effects"). The wrap is decision D5 (log entry 7), the range and register check D4 (log entry 6). -/
def Obligations.StackCollisionIsNoFault : Prop :=
  ∀ (s : State) (a : Byte) (r : RegIdx), Memory.wf s.mem = true → a.toNat = r.val → s.pc.toNat ≤ 253 →
    (∃ t, exec (.push a) s = .next t ∧ KeepsRunAndFault s t ∧ t.memRead t.sp = s.decSp.getReg r ∧
      (s.sp = 0 → t.sp = 255)) ∧
    (∃ t, exec (.call a) s = .next t ∧ KeepsRunAndFault s t ∧ (t.memRead t.sp).toNat = s.pc.toNat + 2 ∧
      (s.sp = 0 → t.sp = 255))

/-! ## Encoding and decoding -/

/-- Rules R60, R62, R66, R71: decoding an encoded instruction gives it back with every operand byte, under any map
that rule R65 allows, whatever follows it. The operand order is decision D2 (log entry 2). -/
def Obligations.DecodeInvertsEncode : Prop :=
  ∀ (m : OpcodeMap) (i : Instr) (rest : List Byte), m.valid = true →
    decodeWith m (encodeWith m i ++ rest) = .ok (i, rest)

/-- Rule R70: what decodes to an instruction is its encoding, so no two byte strings decode alike. -/
def Obligations.EncodeInvertsDecode : Prop :=
  ∀ (m : OpcodeMap) (i : Instr) (bs rest : List Byte), decodeWith m bs = .ok (i, rest) → bs = encodeWith m i ++ rest

/-- Rule R64: the length is that of the instruction the opcode byte matches, and the default map happens to hold
the operand count in bits 7:6. -/
def Obligations.LengthComesFromTheMatchedOpcode : Prop :=
  (∀ (m : OpcodeMap) (i : Instr) (op : Byte) (bs rest : List Byte), decodeWith m (op :: bs) = .ok (i, rest) →
    decodeOpcodeWith m op = some i.mnemonic ∧ bs.length = i.mnemonic.operandCount + rest.length) ∧
  (∀ mn : Mnemonic, (Config.opcodeMap.byteOf mn >>> 6).toNat = mn.operandCount)

/-- The words of the spec's default encodings (rules R66, R72; general knowledge by decision D1, log entry 1) and
that no other opcode byte decodes (rule R68). -/
def Obligations.DefaultOpcodesDecodeAsTabled : Prop :=
  Config.opcodeMap.valid = true ∧
  decode [0x82, 0x00, 0x08] = .ok (.ldi 0 8, []) ∧ decode [0x47, 0x07] = .ok (.prn 7, []) ∧
  decode [0xA2, 0x00, 0x01] = .ok (.mul 0 1, []) ∧ decode [0xA0, 0x02, 0x05] = .ok (.add 2 5, []) ∧
  decode [0x45, 0x03] = .ok (.push 3, []) ∧ decode [0x46, 0x01] = .ok (.pop 1, []) ∧
  decode [0x50, 0x01] = .ok (.call 1, []) ∧ decode [0x11] = .ok (.ret, []) ∧ decode [0x01] = .ok (.hlt, []) ∧
  (∀ b : Byte, (decodeOpcodeWith Config.opcodeMap b).isSome = true ↔
    b ∈ [0x82, 0x47, 0xA2, 0xA0, 0x45, 0x46, 0x50, 0x11, 0x01])

/-! ## The step -/

/-- Rules R80 to R86: a step runs the instruction the bytes at `pc` decode to. The second clause says it of the
instruction whose encoding stands in memory at `pc`. -/
def Obligations.StepRunsTheDecodedInstruction : Prop :=
  (∀ (m : OpcodeMap) (s : State) (i : Instr), s.run = .running → DecodesTo m s i → stepWith m s = exec i s) ∧
  (∀ (m : OpcodeMap) (s : State) (i : Instr), m.valid = true → s.run = .running →
    s.holdsAt s.pc.toNat (encodeWith m i) = true → stepWith m s = exec i s)

/-- Rule R82: an illegal opcode byte faults with the byte and its address, changes nothing else, and no operand byte
is read. -/
def Obligations.IllegalOpcodeFaults : Prop :=
  (∀ (m : OpcodeMap) (s : State), s.run = .running → decodeOpcodeWith m s.fetchOpcode = none →
    stepWith m s = .next { s with run := .faulted, fault := ⟨.unknownOpcode, .mem, s.pc, s.memRead s.pc⟩ }) ∧
  (∀ (m : OpcodeMap) (s : State), s.run = .running → decodeOpcodeWith m s.fetchOpcode = none →
    stepAccessesWith m s = [.read s.pc])

/-- What the effect of rule R88 does, each instruction's pseudocode written over the state's fields; `ra` and `rb` are
the registers the checked operand bytes name, `imm` is the second operand byte as a value. -/
def Sys2Proof.Machine.effectOfR88 (mn : Mnemonic) (ra rb : RegIdx) (imm : Byte) (s : State) : State :=
  let down := s.regs.set 7 (s.regs[7] - 1)
  match mn with
  | .ldi  => { s with regs := s.regs.set ra imm, pc := s.pc + 3 }
  | .prn  => { s with out := s.out ++ [s.regs[ra]], pc := s.pc + 2 }
  | .mul  => { s with regs := s.regs.set ra (s.regs[ra] * s.regs[rb]), pc := s.pc + 3 }
  | .add  => { s with regs := s.regs.set ra (s.regs[ra] + s.regs[rb]), pc := s.pc + 3 }
  | .push => { s with regs := down, mem := Memory.write s.mem down[7].toNat down[ra], pc := s.pc + 2 }
  | .pop  =>
    let up := s.regs.set ra (Memory.read s.mem s.regs[7].toNat)
    { s with regs := up.set 7 (up[7] + 1), pc := s.pc + 2 }
  | .call => { s with regs := down, mem := Memory.write s.mem down[7].toNat (s.pc + 2), pc := down[ra] }
  | .ret  => { s with pc := Memory.read s.mem s.regs[7].toNat, regs := s.regs.set 7 (s.regs[7] + 1) }
  | .hlt  => { s with run := .halted }

/-- The step function as rule R88 writes it, over the opcode byte and its operand count. -/
def Sys2Proof.Machine.stepOfR88 (m : OpcodeMap) (s : State) : State :=
  let op := s.memRead s.pc
  match decodeOpcodeWith m op with
  | none    => s.raise (.unknownOpcode op)
  | some mn =>
    let n := mn.operandCount
    if n ≥ 1 ∧ s.pc.toNat + 1 + n > 255 then
      s.raise (.addressOutOfRangeMem (BitVec.ofNat 8 (s.pc.toNat + 1 + n - 256)))
    else
      let a := s.memRead (s.pc + 1)
      let b := s.memRead (s.pc + 2)
      if n ≥ 1 ∧ a.toNat > 7 then s.raise (.addressOutOfRangeReg a)
      else if (mn = .mul ∨ mn = .add) ∧ b.toNat > 7 then s.raise (.addressOutOfRangeReg b)
      else Sys2Proof.Machine.effectOfR88 mn (Fin.ofNat 8 a.toNat) (Fin.ofNat 8 b.toNat) b s

/-- Rule R88 (with rule R191): from every RUNNING state there is a step, and it is the one the rule's pseudocode
gives, under any opcode map. PUSH R7, POP R7 and CALL R7 are the spec's own inferences in rules R110, R111 and R120.
The checks and their order rest on decisions D4 and D12 (log entries 6, 8), the fault entry and its
record on D10 and D11 (log entries 4, 8), the operand order on D2, the wrap of the stack pointer on D5, and pc after
HLT on D9 (log entries 2, 7, 9). -/
def Obligations.StepIsThePseudocodeOfTheSpec : Prop :=
  ∀ (m : OpcodeMap) (s : State), s.run = .running → stepWith m s = .next (stepOfR88 m s)

/-- Host interface (log entry 11): the word placed for the next step is the word it runs. -/
def Obligations.PlacedWordIsTheNextInstruction : Prop :=
  ∀ (s : State) (nbits w : Nat) (i : Instr), Memory.wf s.mem = true → s.run = .running →
    decodeTableWord nbits w = some i → step (s.withFetchWord nbits w) = exec i (s.withFetchWord nbits w)

/-- Rules R52, R188: the byte a PUSH or a CALL stores is the opcode byte of the next step when `pc` gets there.
PUSH R7 and CALL R7 are the spec's own inferences in rules R110 and R120. -/
def Obligations.StoresAreSeenByTheNextFetch : Prop :=
  ∀ (s t : State) (a : Byte) (r : RegIdx), Memory.wf s.mem = true → a.toNat = r.val → s.pc.toNat ≤ 253 →
    (exec (.push a) s = .next t → s.decSp.sp = s.nextPc 1 → t.fetchOpcode = s.decSp.getReg r) ∧
    (exec (.call a) s = .next t → s.decSp.sp = s.decSp.getReg r → t.fetchOpcode = s.nextPc 1)

/-! ## Faults, run state and invariant -/

/-- Rule R168 (decisions D10 and D11, log entries 4, 8): a step that ends FAULTED has changed nothing but `run` and
`fault`, and the record names the fault and the address of the instruction. -/
def Obligations.FaultsArePrecise : Prop :=
  ∀ (m : OpcodeMap) (s t : State), stepWith m s = .next t → t.run = .faulted →
    t = { s with run := .faulted, fault := t.fault } ∧ t.fault.addr = s.pc ∧
    (t.fault.cause = .unknownOpcode ∧ t.fault.space = .mem ∧ t.fault.val = s.memRead s.pc ∨
     t.fault.cause = .addressOutOfRange ∧ t.fault.space = .mem ∧
       (∃ mn, decodeOpcodeWith m s.fetchOpcode = some mn ∧ 1 ≤ mn.operandCount ∧
         t.fault.val.toNat + 256 = s.pc.toNat + 1 + mn.operandCount) ∨
     t.fault.cause = .addressOutOfRange ∧ t.fault.space = .reg ∧ 7 < t.fault.val.toNat ∧
       (∃ i, DecodesTo m s i ∧ t.fault.val ∈ i.regOperands))

/-- Rule R169: from FAULTED the core takes no step, so the record is written at most once in a run. -/
def Obligations.FaultedCoreNeverResumes : Prop :=
  (∀ (m : OpcodeMap) (s : State), s.run = .faulted → ∀ t, stepWith m s ≠ .next t) ∧
  (∀ (m : OpcodeMap) (j k : Nat) (s : State), (runForWith m j s).run = .faulted →
    runForWith m (j + k) s = runForWith m j s)

/-- Rule R31 (decision D10, log entry 4): the transitions of `run`, and no step from HALTED or FAULTED. -/
def Obligations.RunStateMovesOnlyAsListed : Prop :=
  (∀ (m : OpcodeMap) (s t : State), stepWith m s = .next t → s.run = .running ∧
    (t.run = .running ∧ t.fault = s.fault ∨ t.run = .halted ∧ t.fault = s.fault ∧ DecodesTo m s .hlt ∨
      ∃ e, t = s.raise e)) ∧
  (∀ (m : OpcodeMap) (s : State), (∀ t, stepWith m s ≠ .next t) ↔ s.run ≠ .running)

/-- The invariant (Safety.lean) holds at reset and at every boot, whatever the image. Its canonical memory is the
model's own form (log entry 14), its fault record decision D11 (log entry 8). -/
def Obligations.BootMeetsTheInvariant : Prop :=
  State.reset.Inv ∧
  ∀ (gprs : Vector Byte 7) (sp : Byte) (image : List Byte) (s : State), bootWith gprs sp image = .ok s → s.Inv

/-- Rules R24, R29, R32, R160: every step keeps the invariant, under any opcode map. Canonical memory is the model's
own form (log entry 14); the fault record's fields are decision D11 (log entry 8). -/
def Obligations.StepKeepsTheInvariant : Prop :=
  ∀ (m : OpcodeMap) (s t : State), s.Inv → stepWith m s = .next t → t.Inv

/-- Rule R89: a run is endless, or halts, or faults, exactly one of the three; while RUNNING there is always a step
(rule R191). -/
def Obligations.EveryRunHasOneOfThreeFates : Prop :=
  (∀ (m : OpcodeMap) (s : State), s.run = .running → ∃ t, stepWith m s = .next t) ∧
  ∀ (m : OpcodeMap) (s : State), s.run = .running →
    ((∀ k, (runForWith m k s).run = .running) ∨ (∃ k, (runForWith m k s).run = .halted) ∨
      (∃ k, (runForWith m k s).run = .faulted)) ∧
    (∀ j k, (runForWith m j s).run = .halted → (runForWith m k s).run ≠ .faulted) ∧
    (∀ j k, (runForWith m j s).run ≠ .running → j ≤ k → runForWith m k s = runForWith m j s)

/-! ## Ports and output -/

/-- Rule R10: `Emit` appends one byte, and PRN alone uses it. -/
def Obligations.OutputGrowsByPrnOnly : Prop :=
  (∀ (s : State) (v : Byte), (s.emit v).out = s.out ++ [v]) ∧
  (∀ (m : OpcodeMap) (s t : State), stepWith m s = .next t → t.out ≠ s.out →
    ∃ (reg : Byte) (r : RegIdx), DecodesTo m s (.prn reg) ∧ reg.toNat = r.val ∧ t.out = (s.emit (s.getReg r)).out)

/-- Rules R32, R33 (decision D11): no instruction reads `out` or the fault record; changing them changes nothing
else that a step does. -/
def Obligations.OutAndFaultRecordAreNeverRead : Prop :=
  ∀ (m : OpcodeMap) (s t : State) (o : List Byte) (f : FaultRecord), stepWith m s = .next t →
    ∃ (emitted : List Byte) (u : State), t.out = s.out ++ emitted ∧
      stepWith m { s with out := o, fault := f } = .next u ∧ u.out = o ++ emitted ∧
      u.regs = t.regs ∧ u.pc = t.pc ∧ u.mem = t.mem ∧ u.run = t.run ∧
      (t.run = .faulted → u.fault = t.fault) ∧ (t.run ≠ .faulted → t.fault = s.fault ∧ u.fault = f)

/-- Rule R143 (decisions D16, D17; log entries 13, 15): the values sampled on the output port are what the run
appends to `out`, and a PRN sends exactly its register's value, under any opcode map. -/
def Obligations.OutputPortCarriesTheStream : Prop :=
  (∀ (m : OpcodeMap) (k : Nat) (s : State), (runForWith m k s).out = s.out ++ outSamplesWith m k s) ∧
  (∀ (m : OpcodeMap) (s : State) (reg : Byte) (r : RegIdx), s.run = .running → DecodesTo m s (.prn reg) →
    reg.toNat = r.val → s.pc.toNat ≤ 253 → outPortWith m s = some (s.getReg r)) ∧
  (∀ (m : OpcodeMap) (s : State), (¬ ∃ reg, DecodesTo m s (.prn reg)) → outPortWith m s = none)

/-- Rule R144 (decisions D11, D17; log entries 8, 15): the status port of a state that meets the invariant. -/
def Obligations.StatusPortShowsTheFaultOnlyWhenFaulted : Prop :=
  ∀ (m : OpcodeMap) (s : State), s.Inv →
    (s.statusPort.halted = true ↔ s.run = .halted) ∧ (s.statusPort.faulted = true ↔ s.run = .faulted) ∧
    (s.run ≠ .faulted → s.statusPort.faultCause = 0 ∧ s.statusPort.faultSpace = 0 ∧ s.statusPort.faultAddr = 0 ∧
      s.statusPort.faultVal = 0) ∧
    (s.run = .faulted → (s.statusPort.faultCause = 1 ∨ s.statusPort.faultCause = 2) ∧ s.statusPort.faultAddr = s.pc) ∧
    (s.run ≠ .running → ∀ k, (runForWith m k s).statusPort = s.statusPort)

/-- Rule R45 (decision D22, log entry 5): the accesses of a step in order, under any opcode map, and the stores
among them are all that happens to memory. The byte PUSH R7 writes is the spec's own inference in rule R110. -/
def Obligations.AccessesAreThoseOfTheTable : Prop :=
  (∀ (m : OpcodeMap) (s t : State), stepWith m s = .next t →
    t.mem = ((stepAccessesWith m s).foldl MemAccess.apply s).mem) ∧
  (∀ (m : OpcodeMap) (s : State) (i : Instr), s.run = .running → DecodesTo m s i → executesNormally i s = true →
    stepAccessesWith m s =
      match i with
      | .ldi _ _ | .mul _ _ | .add _ _ => [.read s.pc, .read (s.pc + 1), .read (s.pc + 2)]
      | .prn _   => [.read s.pc, .read (s.pc + 1)]
      | .push a  => [.read s.pc, .read (s.pc + 1), .write (s.sp - 1) (s.decSp.getReg (Fin.ofNat 8 a.toNat))]
      | .pop _   => [.read s.pc, .read (s.pc + 1), .read s.sp]
      | .call _  => [.read s.pc, .read (s.pc + 1), .write (s.sp - 1) (s.pc + 2)]
      | .ret     => [.read s.pc, .read s.sp]
      | .hlt     => [.read s.pc])

/-- Rule R148 (decision D16, log entry 13): the rendering loses nothing, under the default line terminator and
under any that does not begin with a digit; and each decimal text is the shortest. -/
def Obligations.RenderingIsInjective : Prop :=
  (∀ a b : List Byte, render a = render b → a = b) ∧
  (∀ (c : Byte) (rest a b : List Byte), (c.toNat < 48 ∨ 57 < c.toNat) →
    renderWith (c :: rest) a = renderWith (c :: rest) b → a = b) ∧
  (∀ v : Byte, (decimal v).foldl (fun n d => 10 * n + (d.toNat - 48)) 0 = v.toNat ∧
    (∀ d ∈ decimal v, 48 ≤ d.toNat ∧ d.toNat ≤ 57) ∧ ((decimal v).head? = some 0x30 → v = 0 ∧ (decimal v).length = 1))

/-! ## Stack discipline -/

/-- Rule R112: PUSH then POP of one register restores it, the stack pointer and all others, for all eight registers
and across the wrap; the cell keeps the pushed byte; PUSH Ra then POP Rb copies. -/
def Obligations.PushThenPopRestores : Prop :=
  ∀ (s : State) (a b : Byte) (p q : RegIdx), Memory.wf s.mem = true → a.toNat = p.val → b.toNat = q.val →
    s.pc.toNat ≤ 251 →
    ∃ t u v, exec (.push a) s = .next t ∧ exec (.pop a) t = .next u ∧ exec (.pop b) t = .next v ∧
      u.regs = s.regs ∧ u.sp = s.sp ∧ u.memRead (s.sp - 1) = s.decSp.getReg p ∧
      KeepsMemoryExcept s.decSp.sp s u ∧ u.pc.toNat = s.pc.toNat + 4 ∧
      (p ≠ spIdx → q ≠ spIdx → v.getReg q = s.getReg p ∧ v.sp = s.sp)

/-- Rule R123, per pair: a RET that finds the stack pointer and the cell as its CALL left them returns to the
instruction after the CALL. -/
def Obligations.RetReturnsBehindItsCall : Prop :=
  ∀ (s : State) (a : Byte), Memory.wf s.mem = true → executesNormally (.call a) s = true →
    ∃ t, exec (.call a) s = .next t ∧ ∀ u : State, u.sp = t.sp → u.memRead t.sp = t.memRead t.sp →
      ∃ v, exec .ret u = .next v ∧ v.pc.toNat = s.pc.toNat + 2 ∧ v.sp = s.sp

/-- Rule R123, for nested pairs (the reading of spec/90_conflicts.md C8): in a run whose CALLs and RETs pair off
and whose other steps leave the stack pointer and memory alone, nested at most 255 deep, the stack pointer comes back,
and so does the program counter behind each CALL. -/
def Obligations.NestedCallsReturnInOrder : Prop :=
  (∀ (m : OpcodeMap) (d : Nat) (s t : State), Balanced m d s t → t.sp = s.sp) ∧
  (∀ (m : OpcodeMap) (d : Nat) (s u v w : State) (reg : Byte), d ≤ 255 → Memory.wf s.mem = true →
    DecodesTo m s (.call reg) → executesNormally (.call reg) s = true → stepWith m s = .next u →
    Balanced m d u v → DecodesTo m v .ret → stepWith m v = .next w →
    w.pc.toNat = s.pc.toNat + 2 ∧ w.sp = s.sp)
end

