-- ==== Sys2Proof/Laws/State.lean ====
section
/-! SUPPORT. One lemma per update of the state and field, and what each update does to the reads of registers. -/

namespace Sys2Proof.Machine

@[simp] theorem State.memWrite_regs (s : State) (a : Addr) (v : Byte) : (s.memWrite a v).regs = s.regs := rfl
@[simp] theorem State.memWrite_pc (s : State) (a : Addr) (v : Byte) : (s.memWrite a v).pc = s.pc := rfl
@[simp] theorem State.memWrite_mem (s : State) (a : Addr) (v : Byte) : (s.memWrite a v).mem = Memory.write s.mem a.toNat v := rfl
@[simp] theorem State.memWrite_run (s : State) (a : Addr) (v : Byte) : (s.memWrite a v).run = s.run := rfl
@[simp] theorem State.memWrite_fault (s : State) (a : Addr) (v : Byte) : (s.memWrite a v).fault = s.fault := rfl
@[simp] theorem State.memWrite_out (s : State) (a : Addr) (v : Byte) : (s.memWrite a v).out = s.out := rfl

@[simp] theorem State.setReg_regs (s : State) (r : RegIdx) (v : Byte) : (s.setReg r v).regs = s.regs.set r v := rfl
@[simp] theorem State.setReg_pc (s : State) (r : RegIdx) (v : Byte) : (s.setReg r v).pc = s.pc := rfl
@[simp] theorem State.setReg_mem (s : State) (r : RegIdx) (v : Byte) : (s.setReg r v).mem = s.mem := rfl
@[simp] theorem State.setReg_run (s : State) (r : RegIdx) (v : Byte) : (s.setReg r v).run = s.run := rfl
@[simp] theorem State.setReg_fault (s : State) (r : RegIdx) (v : Byte) : (s.setReg r v).fault = s.fault := rfl
@[simp] theorem State.setReg_out (s : State) (r : RegIdx) (v : Byte) : (s.setReg r v).out = s.out := rfl

@[simp] theorem State.decSp_regs (s : State) : s.decSp.regs = s.regs.set spIdx (s.sp - 1) := rfl
@[simp] theorem State.decSp_pc (s : State) : s.decSp.pc = s.pc := rfl
@[simp] theorem State.decSp_mem (s : State) : s.decSp.mem = s.mem := rfl
@[simp] theorem State.decSp_run (s : State) : s.decSp.run = s.run := rfl
@[simp] theorem State.decSp_fault (s : State) : s.decSp.fault = s.fault := rfl
@[simp] theorem State.decSp_out (s : State) : s.decSp.out = s.out := rfl

@[simp] theorem State.incSp_regs (s : State) : s.incSp.regs = s.regs.set spIdx (s.sp + 1) := rfl
@[simp] theorem State.incSp_pc (s : State) : s.incSp.pc = s.pc := rfl
@[simp] theorem State.incSp_mem (s : State) : s.incSp.mem = s.mem := rfl
@[simp] theorem State.incSp_run (s : State) : s.incSp.run = s.run := rfl
@[simp] theorem State.incSp_fault (s : State) : s.incSp.fault = s.fault := rfl
@[simp] theorem State.incSp_out (s : State) : s.incSp.out = s.out := rfl

@[simp] theorem State.setPc_regs (s : State) (t : Addr) : (s.setPc t).regs = s.regs := rfl
@[simp] theorem State.setPc_pc (s : State) (t : Addr) : (s.setPc t).pc = t := rfl
@[simp] theorem State.setPc_mem (s : State) (t : Addr) : (s.setPc t).mem = s.mem := rfl
@[simp] theorem State.setPc_run (s : State) (t : Addr) : (s.setPc t).run = s.run := rfl
@[simp] theorem State.setPc_fault (s : State) (t : Addr) : (s.setPc t).fault = s.fault := rfl
@[simp] theorem State.setPc_out (s : State) (t : Addr) : (s.setPc t).out = s.out := rfl

@[simp] theorem State.advance_regs (s : State) (n : Nat) : (s.advance n).regs = s.regs := rfl
@[simp] theorem State.advance_pc (s : State) (n : Nat) : (s.advance n).pc = s.nextPc n := rfl
@[simp] theorem State.advance_mem (s : State) (n : Nat) : (s.advance n).mem = s.mem := rfl
@[simp] theorem State.advance_run (s : State) (n : Nat) : (s.advance n).run = s.run := rfl
@[simp] theorem State.advance_fault (s : State) (n : Nat) : (s.advance n).fault = s.fault := rfl
@[simp] theorem State.advance_out (s : State) (n : Nat) : (s.advance n).out = s.out := rfl

@[simp] theorem State.emit_regs (s : State) (v : Byte) : (s.emit v).regs = s.regs := rfl
@[simp] theorem State.emit_pc (s : State) (v : Byte) : (s.emit v).pc = s.pc := rfl
@[simp] theorem State.emit_mem (s : State) (v : Byte) : (s.emit v).mem = s.mem := rfl
@[simp] theorem State.emit_run (s : State) (v : Byte) : (s.emit v).run = s.run := rfl
@[simp] theorem State.emit_fault (s : State) (v : Byte) : (s.emit v).fault = s.fault := rfl
@[simp] theorem State.emit_out (s : State) (v : Byte) : (s.emit v).out = s.out ++ [v] := rfl

@[simp] theorem State.halt_regs (s : State) : s.halt.regs = s.regs := rfl
@[simp] theorem State.halt_pc (s : State) : s.halt.pc = s.pc := rfl
@[simp] theorem State.halt_mem (s : State) : s.halt.mem = s.mem := rfl
@[simp] theorem State.halt_run (s : State) : s.halt.run = .halted := rfl
@[simp] theorem State.halt_fault (s : State) : s.halt.fault = s.fault := rfl
@[simp] theorem State.halt_out (s : State) : s.halt.out = s.out := rfl

@[simp] theorem State.raise_regs (s : State) (e : Exception) : (s.raise e).regs = s.regs := rfl
@[simp] theorem State.raise_pc (s : State) (e : Exception) : (s.raise e).pc = s.pc := rfl
@[simp] theorem State.raise_mem (s : State) (e : Exception) : (s.raise e).mem = s.mem := rfl
@[simp] theorem State.raise_run (s : State) (e : Exception) : (s.raise e).run = .faulted := rfl
@[simp] theorem State.raise_fault (s : State) (e : Exception) : (s.raise e).fault = e.record s.pc := rfl
@[simp] theorem State.raise_out (s : State) (e : Exception) : (s.raise e).out = s.out := rfl

@[simp] theorem State.storeTop_regs (s : State) (v : Byte) : (s.storeTop v).regs = s.regs := rfl
@[simp] theorem State.storeTop_pc (s : State) (v : Byte) : (s.storeTop v).pc = s.pc := rfl
@[simp] theorem State.storeTop_mem (s : State) (v : Byte) : (s.storeTop v).mem = Memory.write s.mem s.sp.toNat v := rfl
@[simp] theorem State.storeTop_run (s : State) (v : Byte) : (s.storeTop v).run = s.run := rfl
@[simp] theorem State.storeTop_fault (s : State) (v : Byte) : (s.storeTop v).fault = s.fault := rfl
@[simp] theorem State.storeTop_out (s : State) (v : Byte) : (s.storeTop v).out = s.out := rfl

@[simp] theorem State.getReg_setReg (s : State) (r x : RegIdx) (v : Byte) :
    (s.setReg r v).getReg x = if x = r then v else s.getReg x := by
  simp [State.getReg, State.setReg, Vector.getElem_set, Fin.ext_iff, eq_comm]

@[simp] theorem State.getReg_decSp (s : State) (x : RegIdx) :
    s.decSp.getReg x = if x = spIdx then s.sp - 1 else s.getReg x := State.getReg_setReg s spIdx x _

@[simp] theorem State.getReg_incSp (s : State) (x : RegIdx) :
    s.incSp.getReg x = if x = spIdx then s.sp + 1 else s.getReg x := State.getReg_setReg s spIdx x _

@[simp] theorem State.sp_decSp (s : State) : s.decSp.sp = s.sp - 1 := by simp [State.sp]

@[simp] theorem State.sp_incSp (s : State) : s.incSp.sp = s.sp + 1 := by simp [State.sp]

@[simp] theorem State.getReg_memWrite (s : State) (a : Addr) (v : Byte) (x : RegIdx) : (s.memWrite a v).getReg x = s.getReg x := rfl
@[simp] theorem State.sp_memWrite (s : State) (a : Addr) (v : Byte) : (s.memWrite a v).sp = s.sp := rfl
@[simp] theorem State.getReg_setPc (s : State) (t : Addr) (x : RegIdx) : (s.setPc t).getReg x = s.getReg x := rfl
@[simp] theorem State.sp_setPc (s : State) (t : Addr) : (s.setPc t).sp = s.sp := rfl
@[simp] theorem State.getReg_advance (s : State) (n : Nat) (x : RegIdx) : (s.advance n).getReg x = s.getReg x := rfl
@[simp] theorem State.sp_advance (s : State) (n : Nat) : (s.advance n).sp = s.sp := rfl
@[simp] theorem State.getReg_emit (s : State) (v : Byte) (x : RegIdx) : (s.emit v).getReg x = s.getReg x := rfl
@[simp] theorem State.sp_emit (s : State) (v : Byte) : (s.emit v).sp = s.sp := rfl
@[simp] theorem State.getReg_halt (s : State) (x : RegIdx) : s.halt.getReg x = s.getReg x := rfl
@[simp] theorem State.sp_halt (s : State) : s.halt.sp = s.sp := rfl
@[simp] theorem State.getReg_raise (s : State) (e : Exception) (x : RegIdx) : (s.raise e).getReg x = s.getReg x := rfl
@[simp] theorem State.sp_raise (s : State) (e : Exception) : (s.raise e).sp = s.sp := rfl
@[simp] theorem State.getReg_storeTop (s : State) (v : Byte) (x : RegIdx) : (s.storeTop v).getReg x = s.getReg x := rfl
@[simp] theorem State.sp_storeTop (s : State) (v : Byte) : (s.storeTop v).sp = s.sp := rfl

@[simp] theorem State.memRead_setReg (s : State) (r : RegIdx) (v : Byte) (d : Addr) : (s.setReg r v).memRead d = s.memRead d := rfl
@[simp] theorem State.memRead_decSp (s : State) (d : Addr) : s.decSp.memRead d = s.memRead d := rfl
@[simp] theorem State.memRead_incSp (s : State) (d : Addr) : s.incSp.memRead d = s.memRead d := rfl
@[simp] theorem State.memRead_setPc (s : State) (t : Addr) (d : Addr) : (s.setPc t).memRead d = s.memRead d := rfl
@[simp] theorem State.memRead_advance (s : State) (n : Nat) (d : Addr) : (s.advance n).memRead d = s.memRead d := rfl
@[simp] theorem State.memRead_emit (s : State) (v : Byte) (d : Addr) : (s.emit v).memRead d = s.memRead d := rfl
@[simp] theorem State.memRead_halt (s : State) (d : Addr) : s.halt.memRead d = s.memRead d := rfl
@[simp] theorem State.memRead_raise (s : State) (e : Exception) (d : Addr) : (s.raise e).memRead d = s.memRead d := rfl

@[simp] theorem State.nextPc_memWrite (s : State) (a : Addr) (v : Byte) (n : Nat) : (s.memWrite a v).nextPc n = s.nextPc n := rfl
@[simp] theorem State.nextPc_setReg (s : State) (r : RegIdx) (v : Byte) (n : Nat) : (s.setReg r v).nextPc n = s.nextPc n := rfl
@[simp] theorem State.nextPc_decSp (s : State) (n : Nat) : s.decSp.nextPc n = s.nextPc n := rfl
@[simp] theorem State.nextPc_incSp (s : State) (n : Nat) : s.incSp.nextPc n = s.nextPc n := rfl
@[simp] theorem State.nextPc_emit (s : State) (v : Byte) (n : Nat) : (s.emit v).nextPc n = s.nextPc n := rfl
@[simp] theorem State.nextPc_halt (s : State) (n : Nat) : s.halt.nextPc n = s.nextPc n := rfl
@[simp] theorem State.nextPc_raise (s : State) (e : Exception) (n : Nat) : (s.raise e).nextPc n = s.nextPc n := rfl
@[simp] theorem State.nextPc_storeTop (s : State) (v : Byte) (n : Nat) : (s.storeTop v).nextPc n = s.nextPc n := rfl

end Sys2Proof.Machine
end

