-- ==== Sys2Proof/Laws/Memory.lean ====
section
/-! SUPPORT. The laws of memory: canonical form, read after write, and the operations of the state built on them. -/

namespace Sys2Proof.Machine

theorem Memory.wfFrom_mono {lo hi : Nat} (m : Memory) (h : lo ≤ hi) (w : Memory.wfFrom hi m = true) :
    Memory.wfFrom lo m = true := by
  cases m with
  | nil => rfl
  | cons c rest =>
    simp only [Memory.wfFrom, Bool.and_eq_true, decide_eq_true_eq] at w ⊢
    exact ⟨⟨⟨by omega, w.1.1.2⟩, w.1.2⟩, w.2⟩

/-- Below the first possible address every cell is unlisted. -/
theorem Memory.read_below {lo a : Nat} (m : Memory) (w : Memory.wfFrom lo m = true) (h : a < lo) :
    Memory.read m a = Memory.unlisted := by
  induction m generalizing lo with
  | nil => rfl
  | cons c rest ih =>
    simp only [Memory.wfFrom, Bool.and_eq_true, decide_eq_true_eq] at w
    simp only [Memory.read]
    rw [if_neg (by omega)]
    exact ih w.2 (by omega)

/-- A write of an existing address keeps the canonical form. -/
theorem Memory.wfFrom_write {lo a : Nat} (m : Memory) (v : Byte) (w : Memory.wfFrom lo m = true) (h : lo ≤ a)
    (ha : a < 256) : Memory.wfFrom lo (Memory.write m a v) = true := by
  induction m generalizing lo with
  | nil =>
    simp only [Memory.write]
    split
    · rfl
    · simp [Memory.wfFrom, *]
  | cons c rest ih =>
    have w' := w
    simp only [Memory.wfFrom, Bool.and_eq_true, decide_eq_true_eq] at w
    simp only [Memory.write]
    split
    · split
      · exact w'
      · simp only [Memory.wfFrom, Bool.and_eq_true, decide_eq_true_eq]
        exact ⟨⟨⟨h, ha⟩, by assumption⟩, ⟨⟨by omega, w.1.1.2⟩, w.1.2⟩, w.2⟩
    · split
      · subst a
        split
        · exact Memory.wfFrom_mono rest (by omega) w.2
        · simp only [Memory.wfFrom, Bool.and_eq_true, decide_eq_true_eq]
          exact ⟨⟨⟨h, ha⟩, by assumption⟩, w.2⟩
      · simp only [Memory.wfFrom, Bool.and_eq_true, decide_eq_true_eq]
        exact ⟨⟨⟨w.1.1.1, w.1.1.2⟩, w.1.2⟩, ih w.2 (by omega)⟩

/-- Read after write on a canonical memory. -/
theorem Memory.read_write {lo : Nat} (m : Memory) (a d : Nat) (v : Byte) (w : Memory.wfFrom lo m = true) :
    Memory.read (Memory.write m a v) d = if d = a then v else Memory.read m d := by
  induction m generalizing lo with
  | nil =>
    simp only [Memory.write]
    split
    · simp only [Memory.read]; split <;> simp_all
    · simp only [Memory.read]; simp only [eq_comm]
  | cons c rest ih =>
    have low := fun b => Memory.read_below (a := b) (c :: rest) w
    simp only [Memory.wfFrom, Bool.and_eq_true, decide_eq_true_eq] at w
    have high := fun b => Memory.read_below (a := b) rest w.2
    simp only [Memory.write]
    split
    · split
      · by_cases hd : d = a
        · subst hd; rw [if_pos rfl, ‹v = _›]
          simp only [Memory.read]; rw [if_neg (by omega)]; exact high d (by omega)
        · rw [if_neg hd]
      · conv_lhs => rw [Memory.read]
        simp only [eq_comm]
    · split
      · subst a
        split
        · by_cases hd : d = c.1
          · subst hd; rw [if_pos rfl, ‹v = _›]; exact high _ (by omega)
          · rw [if_neg hd]; conv_rhs => rw [Memory.read]
            rw [if_neg (fun e => hd e.symm)]
        · conv_lhs => rw [Memory.read]
          by_cases hd : d = c.1
          · simp [hd]
          · rw [if_neg (fun e => hd e.symm), if_neg hd]; conv_rhs => rw [Memory.read]
            rw [if_neg (fun e => hd e.symm)]
      · conv_lhs => rw [Memory.read]
        by_cases hd : d = c.1
        · subst hd; rw [if_pos rfl, if_neg (by omega)]; conv_rhs => rw [Memory.read]
          rw [if_pos rfl]
        · rw [if_neg (fun e => hd e.symm), ih w.2]
          have : Memory.read (c :: rest) d = Memory.read rest d := by
            rw [Memory.read, if_neg (fun e => hd e.symm)]
          rw [this]

theorem State.wf_memWrite (s : State) (a : Addr) (v : Byte) (w : Memory.wf s.mem = true) :
    Memory.wf (s.memWrite a v).mem = true :=
  Memory.wfFrom_write s.mem v w (Nat.zero_le _) a.isLt

theorem State.wf_storeTop (s : State) (v : Byte) (w : Memory.wf s.mem = true) :
    Memory.wf (s.storeTop v).mem = true := State.wf_memWrite s s.sp v w

theorem State.wf_loadFrom (s : State) (a : Nat) (bs : List Byte) (w : Memory.wf s.mem = true) :
    Memory.wf (s.loadFrom a bs).mem = true := by
  induction bs generalizing s a with
  | nil => exact w
  | cons b bs ih => exact ih _ _ (State.wf_memWrite s _ b w)

theorem State.wf_placeAt (s : State) (a : Nat) (bs : List Byte) (w : Memory.wf s.mem = true) :
    Memory.wf (s.placeAt a bs).mem = true := by
  induction bs generalizing s a with
  | nil => exact w
  | cons b bs ih =>
    simp only [State.placeAt]
    split
    · exact ih _ _ (State.wf_memWrite s _ b w)
    · exact w

theorem Memory.wf_reset : Memory.wf State.reset.mem = true := rfl

/-- The load port changes memory alone. -/
theorem State.loadFrom_eq (s : State) (a : Nat) (bs : List Byte) :
    s.loadFrom a bs = { s with mem := (s.loadFrom a bs).mem } := by
  induction bs generalizing s a with
  | nil => rfl
  | cons b bs ih => simp only [State.loadFrom]; rw [ih]; rfl

/-- Placing bytes changes memory alone. -/
theorem State.placeAt_eq (s : State) (a : Nat) (bs : List Byte) :
    s.placeAt a bs = { s with mem := (s.placeAt a bs).mem } := by
  induction bs generalizing s a with
  | nil => rfl
  | cons b bs ih =>
    simp only [State.placeAt]
    split
    · rw [ih]; rfl
    · rfl

end Sys2Proof.Machine
end

