-- ==== Sys2Proof/Laws/Checks.lean ====
section
/-! SUPPORT. What the shared checks and the ALU write-back can do, each said once. -/

namespace Sys2Proof.Machine

theorem regOf?_eq_some {b : Byte} {r : RegIdx} (h : b.toNat = r.val) : regOf? b = some r := by
  simp [regOf?, h]

theorem regOf?_eq_none {b : Byte} (h : 7 < b.toNat) : regOf? b = none := by
  simp [regOf?]; omega

theorem regOf?_cases (b : Byte) :
    (∃ r : RegIdx, b.toNat = r.val ∧ regOf? b = some r ∧ validReg b = true) ∨
    (7 < b.toNat ∧ regOf? b = none ∧ validReg b = false) := by
  by_cases h : b.toNat < 8
  · exact .inl ⟨⟨b.toNat, h⟩, rfl, by simp [regOf?, h], by simp [validReg, h]⟩
  · exact .inr ⟨by omega, by simp [regOf?, h], by simp [validReg, h]⟩

theorem validReg_of_eq {b : Byte} {r : RegIdx} (h : b.toNat = r.val) : validReg b = true := by
  simp [validReg, h]

theorem executesNormally_iff {i : Instr} {s : State} : executesNormally i s = true ↔
    (i.operandCount = 0 ∨ s.pc.toNat + 1 + i.operandCount ≤ 255) ∧ i.wf = true := by
  simp [executesNormally]

/-- An instruction with an invalid register operand is not well formed. -/
theorem wf_of_find {i : Instr} {b : Byte} (h : i.regOperands.find? (fun b => !validReg b) = some b) :
    i.wf = false := by
  have hv := List.find?_some h
  simp only [Instr.wf, List.all_eq_false]
  exact ⟨b, List.mem_of_find?_eq_some h, by simpa using hv⟩

theorem checkReg_ok {b : Byte} {r : RegIdx} (s : State) (k : RegIdx → Result) (h : b.toNat = r.val) :
    checkReg b s k = k r := by
  simp [checkReg, regOf?_eq_some h]

theorem checkReg_bad {b : Byte} (s : State) (k : RegIdx → Result) (h : 7 < b.toNat) :
    checkReg b s k = .next (s.raise (.addressOutOfRangeReg b)) := by
  simp [checkReg, regOf?_eq_none h]

theorem checkRange_ok {n : Nat} {s : State} (k : Result) (h : s.pc.toNat + 1 + n ≤ 255) : checkRange n s k = k := by
  simp only [checkRange]; rw [if_neg (by omega)]

theorem checkRange_bad {n : Nat} {s : State} (k : Result) (h : 255 < s.pc.toNat + 1 + n) :
    checkRange n s k = .next (s.raise (s.rangeException n)) := by
  simp only [checkRange]; rw [if_pos (by omega)]

/-- A checked register operand answers a next state in one of two ways. -/
theorem checkReg_cases {b : Byte} {s t : State} {k : RegIdx → Result} (h : checkReg b s k = .next t) :
    (∃ r : RegIdx, b.toNat = r.val ∧ k r = .next t) ∨ (7 < b.toNat ∧ t = s.raise (.addressOutOfRangeReg b)) := by
  rcases regOf?_cases b with ⟨r, hb, hr, -⟩ | ⟨hb, hr, -⟩
  · exact .inl ⟨r, hb, by simpa [checkReg, hr] using h⟩
  · refine .inr ⟨hb, ?_⟩
    simp only [checkReg, hr] at h
    cases h; rfl

/-- The range check answers a next state in one of two ways. -/
theorem checkRange_cases {n : Nat} {s t : State} {k : Result} (h : checkRange n s k = .next t) :
    (s.pc.toNat + 1 + n ≤ 255 ∧ k = .next t) ∨ (255 < s.pc.toNat + 1 + n ∧ t = s.raise (s.rangeException n)) := by
  by_cases hb : 255 < s.pc.toNat + 1 + n
  · rw [checkRange_bad _ hb] at h
    cases h; exact .inr ⟨hb, rfl⟩
  · rw [checkRange_ok _ (by omega)] at h
    exact .inl ⟨by omega, h⟩

/-- The record of a fault names the address of the faulting instruction. -/
@[simp] theorem Exception.record_addr (e : Exception) (pc : Addr) : (e.record pc).addr = pc := by
  cases e <;> rfl

/-- The increment of an instruction that passed the range check does not carry. -/
theorem State.nextPc_toNat {s : State} {n : Nat} (h : s.pc.toNat + 1 + n ≤ 255) :
    (s.nextPc n).toNat = s.pc.toNat + 1 + n := by
  simp [State.nextPc]; omega

@[simp] theorem aluApply_add (dst src : RegIdx) (s : State) (k : State → Result) :
    aluApply selAdd dst src s k
      = k (s.setReg dst (BitVec.ofNat 8 ((s.getReg dst).toNat + (s.getReg src).toNat))) := rfl

@[simp] theorem aluApply_mul (dst src : RegIdx) (s : State) (k : State → Result) :
    aluApply selMul dst src s k
      = k (s.setReg dst (BitVec.ofNat 8 ((s.getReg dst).toNat * (s.getReg src).toNat))) := rfl

end Sys2Proof.Machine
end

