-- ==== Sys2Proof/Laws/PerInstr.lean ====
section
/-! SUPPORT. Statements made of every instruction, one lemma per constructor. -/

namespace Sys2Proof.Laws.EncodingLength

/-- An instruction has one opcode byte and its operand bytes, whatever the opcode map (rule R60). -/
def Statement (i : Instr) : Prop := ∀ m : OpcodeMap, (encodeWith m i).length = 1 + i.operandCount

theorem ldi (a b : Byte) : Statement (.ldi a b) := fun _ => rfl
theorem prn (a : Byte) : Statement (.prn a) := fun _ => rfl
theorem mul (a b : Byte) : Statement (.mul a b) := fun _ => rfl
theorem add (a b : Byte) : Statement (.add a b) := fun _ => rfl
theorem push (a : Byte) : Statement (.push a) := fun _ => rfl
theorem pop (a : Byte) : Statement (.pop a) := fun _ => rfl
theorem call (a : Byte) : Statement (.call a) := fun _ => rfl
theorem ret : Statement .ret := fun _ => rfl
theorem hlt : Statement .hlt := fun _ => rfl

end Sys2Proof.Laws.EncodingLength
end

