-- ==== Sys2Proof/Laws/Step.lean ====
section
/-! SUPPORT. What an instruction and a step can do, each said once: an instruction ends in its effect or in the fault
of its first failed check, and a step runs an instruction or rejects the bytes at `pc`. -/

namespace Sys2Proof.Machine

/-- The effect of an instruction whose checks have passed. -/
inductive Effect (s : State) : Instr → State → Prop where
  | ldi {a b : Byte} {r : RegIdx} (ha : a.toNat = r.val) (hp : s.pc.toNat + 1 + 2 ≤ 255) :
      Effect s (.ldi a b) ((s.setReg r b).advance 2)
  | prn {a : Byte} {r : RegIdx} (ha : a.toNat = r.val) (hp : s.pc.toNat + 1 + 1 ≤ 255) :
      Effect s (.prn a) ((s.emit (s.getReg r)).advance 1)
  | mul {a b : Byte} {p q : RegIdx} (ha : a.toNat = p.val) (hb : b.toNat = q.val) (hp : s.pc.toNat + 1 + 2 ≤ 255) :
      Effect s (.mul a b) ((s.setReg p (BitVec.ofNat 8 ((s.getReg p).toNat * (s.getReg q).toNat))).advance 2)
  | add {a b : Byte} {p q : RegIdx} (ha : a.toNat = p.val) (hb : b.toNat = q.val) (hp : s.pc.toNat + 1 + 2 ≤ 255) :
      Effect s (.add a b) ((s.setReg p (BitVec.ofNat 8 ((s.getReg p).toNat + (s.getReg q).toNat))).advance 2)
  | push {a : Byte} {r : RegIdx} (ha : a.toNat = r.val) (hp : s.pc.toNat + 1 + 1 ≤ 255) :
      Effect s (.push a) ((s.decSp.storeTop (s.decSp.getReg r)).advance 1)
  | pop {a : Byte} {r : RegIdx} (ha : a.toNat = r.val) (hp : s.pc.toNat + 1 + 1 ≤ 255) :
      Effect s (.pop a) ((s.setReg r s.loadTop).incSp.advance 1)
  | call {a : Byte} {r : RegIdx} (ha : a.toNat = r.val) (hp : s.pc.toNat + 1 + 1 ≤ 255) :
      Effect s (.call a) ((s.decSp.storeTop (s.nextPc 1)).setPc (s.decSp.getReg r))
  | ret : Effect s .ret ((s.setPc s.loadTop).incSp)
  | hlt : Effect s .hlt s.halt

/-- The fault of the first check an instruction fails. -/
inductive FirstFailed (s : State) (i : Instr) : Exception → Prop where
  | range (hn : i.operandCount ≠ 0) (hp : 255 < s.pc.toNat + 1 + i.operandCount) :
      FirstFailed s i (s.rangeException i.operandCount)
  | reg {b : Byte} (hb : 7 < b.toNat) (hm : i.regOperands.find? (fun b => !validReg b) = some b)
      (hp : s.pc.toNat + 1 + i.operandCount ≤ 255) : FirstFailed s i (.addressOutOfRangeReg b)

/-- How an instruction can end: in its effect, the conditions of rule R86 met, or in the fault of its first failed
check, those conditions not met. -/
def Ends (s : State) (i : Instr) (t : State) : Prop :=
  (executesNormally i s = true ∧ Effect s i t) ∨
  (executesNormally i s = false ∧ ∃ e, FirstFailed s i e ∧ t = s.raise e)

theorem FirstFailed.not_normal {s : State} {i : Instr} {e : Exception} (h : FirstFailed s i e) :
    executesNormally i s = false := by
  rw [← Bool.not_eq_true, executesNormally_iff]
  cases h with
  | range hn hp => rintro ⟨h | h, -⟩ <;> omega
  | reg hb hm hp => rw [wf_of_find hm]; simp

theorem FirstFailed.ends {s : State} {i : Instr} {e : Exception} (h : FirstFailed s i e) : Ends s i (s.raise e) :=
  .inr ⟨h.not_normal, e, h, rfl⟩

theorem Effect.ends {s t : State} {i : Instr} (h : Effect s i t) : Ends s i t := by
  refine .inl ⟨executesNormally_iff.mpr ?_, h⟩
  cases h with
  | ldi ha hp => exact ⟨.inr hp, by simp [Instr.wf, Instr.regOperands, validReg_of_eq ha]⟩
  | prn ha hp => exact ⟨.inr hp, by simp [Instr.wf, Instr.regOperands, validReg_of_eq ha]⟩
  | mul ha hb hp => exact ⟨.inr hp, by simp [Instr.wf, Instr.regOperands, validReg_of_eq ha, validReg_of_eq hb]⟩
  | add ha hb hp => exact ⟨.inr hp, by simp [Instr.wf, Instr.regOperands, validReg_of_eq ha, validReg_of_eq hb]⟩
  | push ha hp => exact ⟨.inr hp, by simp [Instr.wf, Instr.regOperands, validReg_of_eq ha]⟩
  | pop ha hp => exact ⟨.inr hp, by simp [Instr.wf, Instr.regOperands, validReg_of_eq ha]⟩
  | call ha hp => exact ⟨.inr hp, by simp [Instr.wf, Instr.regOperands, validReg_of_eq ha]⟩
  | ret => exact ⟨.inl rfl, rfl⟩
  | hlt => exact ⟨.inl rfl, rfl⟩

/-- The shape of the instructions with one register operand. -/
theorem oneReg_ends (i : Instr) (s : State) (a : Byte) (k : RegIdx → Result) (hn : i.operandCount ≠ 0)
    (hr : i.regOperands = [a]) (he : exec i s = checkRange i.operandCount s (checkReg a s k))
    (hk : ∀ r : RegIdx, a.toNat = r.val → s.pc.toNat + 1 + i.operandCount ≤ 255 → ∃ t, k r = .next t ∧ Effect s i t) :
    ∃ t, exec i s = .next t ∧ Ends s i t := by
  rw [he]
  by_cases hp : s.pc.toNat + 1 + i.operandCount ≤ 255
  · rw [checkRange_ok _ hp]
    rcases regOf?_cases a with ⟨r, ha, -, -⟩ | ⟨ha, -, hv⟩
    · rw [checkReg_ok _ _ ha]
      obtain ⟨t, ht, e⟩ := hk r ha hp
      exact ⟨t, ht, e.ends⟩
    · rw [checkReg_bad _ _ ha]; exact ⟨_, rfl, (FirstFailed.reg ha (by simp [hr, hv]) hp).ends⟩
  · rw [checkRange_bad _ (by omega)]; exact ⟨_, rfl, (FirstFailed.range hn (by omega)).ends⟩

/-- The shape of the instructions with two register operands. -/
theorem twoReg_ends (i : Instr) (s : State) (a b : Byte) (k : RegIdx → RegIdx → Result) (hn : i.operandCount ≠ 0)
    (hr : i.regOperands = [a, b])
    (he : exec i s = checkRange i.operandCount s (checkReg a s fun p => checkReg b s fun q => k p q))
    (hk : ∀ p q : RegIdx, a.toNat = p.val → b.toNat = q.val → s.pc.toNat + 1 + i.operandCount ≤ 255 →
      ∃ t, k p q = .next t ∧ Effect s i t) :
    ∃ t, exec i s = .next t ∧ Ends s i t := by
  rw [he]
  by_cases hp : s.pc.toNat + 1 + i.operandCount ≤ 255
  · rw [checkRange_ok _ hp]
    rcases regOf?_cases a with ⟨p, ha, -, hva⟩ | ⟨ha, -, hva⟩
    · rw [checkReg_ok _ _ ha]
      rcases regOf?_cases b with ⟨q, hb, -, -⟩ | ⟨hb, -, hvb⟩
      · rw [checkReg_ok _ _ hb]
        obtain ⟨t, ht, e⟩ := hk p q ha hb hp
        exact ⟨t, ht, e.ends⟩
      · rw [checkReg_bad _ _ hb]; exact ⟨_, rfl, (FirstFailed.reg hb (by simp [hr, hva, hvb]) hp).ends⟩
    · rw [checkReg_bad _ _ ha]; exact ⟨_, rfl, (FirstFailed.reg ha (by simp [hr, hva]) hp).ends⟩
  · rw [checkRange_bad _ (by omega)]; exact ⟨_, rfl, (FirstFailed.range hn (by omega)).ends⟩

/-- Every instruction answers a next state, and it is one of those of `Ends`. -/
theorem exec_ends (i : Instr) (s : State) : ∃ t, exec i s = .next t ∧ Ends s i t := by
  have pos1 : (1 : Nat) ≠ 0 := by decide
  have pos2 : (2 : Nat) ≠ 0 := by decide
  cases i with
  | ldi a b => exact oneReg_ends _ s a _ pos2 rfl rfl fun r ha hp => ⟨_, rfl, .ldi ha hp⟩
  | prn a => exact oneReg_ends _ s a _ pos1 rfl rfl fun r ha hp => ⟨_, rfl, .prn ha hp⟩
  | push a => exact oneReg_ends _ s a _ pos1 rfl rfl fun r ha hp => ⟨_, rfl, .push ha hp⟩
  | pop a => exact oneReg_ends _ s a _ pos1 rfl rfl fun r ha hp => ⟨_, rfl, .pop ha hp⟩
  | call a => exact oneReg_ends _ s a _ pos1 rfl rfl fun r ha hp => ⟨_, rfl, .call ha hp⟩
  | mul a b => exact twoReg_ends _ s a b _ pos2 rfl rfl fun p q ha hb hp => ⟨_, rfl, .mul ha hb hp⟩
  | add a b => exact twoReg_ends _ s a b _ pos2 rfl rfl fun p q ha hb hp => ⟨_, rfl, .add ha hb hp⟩
  | ret => exact ⟨_, rfl, Effect.ret.ends⟩
  | hlt => exact ⟨_, rfl, Effect.hlt.ends⟩

/-- Inversion: if an instruction answers a next state, it is one of those of `Ends`. -/
theorem exec_cases {i : Instr} {s t : State} (h : exec i s = .next t) : Ends s i t := by
  obtain ⟨u, hu, he⟩ := exec_ends i s
  rw [hu] at h
  cases h; exact he

/-- An effect is what the instruction answers. -/
theorem Effect.exec_eq {i : Instr} {s t : State} (h : Effect s i t) : exec i s = .next t := by
  cases h with
  | ldi ha hp => simp only [exec, execLdi]; rw [checkRange_ok _ hp, checkReg_ok _ _ ha]
  | prn ha hp => simp only [exec, execPrn]; rw [checkRange_ok _ hp, checkReg_ok _ _ ha]
  | mul ha hb hp =>
    simp only [exec, execMul, execRR]
    rw [checkRange_ok _ hp, checkReg_ok _ _ ha, checkReg_ok _ _ hb, aluApply_mul]
  | add ha hb hp =>
    simp only [exec, execAdd, execRR]
    rw [checkRange_ok _ hp, checkReg_ok _ _ ha, checkReg_ok _ _ hb, aluApply_add]
  | push ha hp => simp only [exec, execPush]; rw [checkRange_ok _ hp, checkReg_ok _ _ ha]
  | pop ha hp => simp only [exec, execPop]; rw [checkRange_ok _ hp, checkReg_ok _ _ ha]
  | call ha hp => simp only [exec, execCall]; rw [checkRange_ok _ hp, checkReg_ok _ _ ha]
  | ret => rfl
  | hlt => rfl

/-- A failed check's fault is what the instruction answers. -/
theorem FirstFailed.exec_eq {i : Instr} {s : State} {e : Exception} (h : FirstFailed s i e) :
    exec i s = .next (s.raise e) := by
  obtain ⟨t, ht, ⟨hn, -⟩ | ⟨-, e', h', rfl⟩⟩ := exec_ends i s
  · rw [h.not_normal] at hn; cases hn
  · rw [ht]
    cases h with
    | range hn hp =>
      cases h' with
      | range _ _ => rfl
      | reg _ _ hp' => omega
    | reg hb hm hp =>
      cases h' with
      | range _ hp' => omega
      | reg hb' hm' hp' => rw [hm] at hm'; cases hm'; rfl

/-- Inversion of a step: `run` was RUNNING, and the step ran the decoded instruction or rejected the bytes. -/
theorem stepWith_cases {m : OpcodeMap} {s t : State} (h : stepWith m s = .next t) :
    s.run = .running ∧
    ((∃ i, DecodesTo m s i ∧ exec i s = .next t) ∨
     (∃ r, decodeAtWith m s.fetchOpcode s.operandWindow = .error r ∧ t = s.raise (rejectException s r))) := by
  simp only [stepWith] at h
  cases hr : s.run with
  | halted => rw [hr] at h; cases h
  | faulted => rw [hr] at h; cases h
  | running =>
    rw [hr] at h
    refine ⟨rfl, ?_⟩
    cases hd : decodeAtWith m s.fetchOpcode s.operandWindow with
    | ok p => rw [hd] at h; exact .inl ⟨p.1, ⟨p.2, hd⟩, h⟩
    | error r => rw [hd] at h; cases h; exact .inr ⟨r, rfl, rfl⟩

/-- A decoded instruction's bytes: the opcode matches and the operands lead the bytes after it. -/
theorem takeOperands_ok {mn : Mnemonic} {bs rest : List Byte} {i : Instr} (h : takeOperands mn bs = .ok (i, rest)) :
    i.mnemonic = mn ∧ bs = i.operands ++ rest := by
  unfold takeOperands at h
  split at h <;> cases h <;> exact ⟨rfl, rfl⟩

theorem decodeAtWith_ok {m : OpcodeMap} {op : Byte} {bs rest : List Byte} {i : Instr}
    (h : decodeAtWith m op bs = .ok (i, rest)) :
    decodeOpcodeWith m op = some i.mnemonic ∧ bs = i.operands ++ rest := by
  simp only [decodeAtWith] at h
  cases hd : decodeOpcodeWith m op with
  | none => rw [hd] at h; cases h
  | some mn =>
    rw [hd] at h
    obtain ⟨h1, h2⟩ := takeOperands_ok h
    exact ⟨by rw [h1], h2⟩

/-- Operand bytes can only be missing, and then fewer are there than the instruction has. -/
theorem takeOperands_error {mn : Mnemonic} {bs : List Byte} {r : Reject} (h : takeOperands mn bs = .error r) :
    r = .operandsMissing mn.operandCount ∧ bs.length < mn.operandCount := by
  unfold takeOperands at h
  split at h <;> cases h <;> refine ⟨rfl, ?_⟩ <;> rename_i hne <;>
    rcases bs with _ | ⟨a, _ | ⟨b, t⟩⟩ <;> simp_all [Mnemonic.operandCount]

theorem decodeAtWith_error {m : OpcodeMap} {op : Byte} {bs : List Byte} {r : Reject}
    (h : decodeAtWith m op bs = .error r) :
    (decodeOpcodeWith m op = none ∧ r = .unknownOpcode op) ∨
    ∃ mn, decodeOpcodeWith m op = some mn ∧ r = .operandsMissing mn.operandCount ∧ bs.length < mn.operandCount := by
  simp only [decodeAtWith] at h
  cases hd : decodeOpcodeWith m op with
  | none => rw [hd] at h; cases h; exact .inl ⟨rfl, rfl⟩
  | some mn => rw [hd] at h; exact .inr ⟨mn, rfl, takeOperands_error h⟩

theorem Mnemonic.operandCount_le (mn : Mnemonic) : mn.operandCount ≤ 2 := by cases mn <;> decide

/-- If the window holds fewer than `n` bytes, the range check of `n` operands fails. -/
theorem State.operandWindow_short {s : State} {n : Nat} (h : s.operandWindow.length < n) (hn : n ≤ 2) :
    255 < s.pc.toNat + n ∧ n ≠ 0 := by
  have hpc := s.pc.isLt
  refine ⟨?_, by omega⟩
  simp only [State.operandWindow] at h
  split at h
  · simp only [List.length_cons, List.length_nil] at h; omega
  · split at h <;> simp only [List.length_cons, List.length_nil] at h <;> omega

/-- A byte that decodes is the map's byte of what it decodes to (rules R64, R71). -/
theorem decodeOpcodeWith_some {m : OpcodeMap} {b : Byte} {mn : Mnemonic} (h : decodeOpcodeWith m b = some mn) :
    b = m.byteOf mn := by
  simp only [decodeOpcodeWith] at h
  repeat' (split at h)
  all_goals simp_all [OpcodeMap.byteOf, eq_comm]

/-- A map that rule R65 allows decodes each of its bytes to the instruction it is for. -/
theorem decodeOpcodeWith_byteOf {m : OpcodeMap} (h : m.valid = true) (mn : Mnemonic) :
    decodeOpcodeWith m (m.byteOf mn) = some mn := by
  simp [OpcodeMap.valid, OpcodeMap.values] at h
  obtain ⟨⟨h, -⟩, -⟩ := h
  cases mn <;> simp_all [decodeOpcodeWith, OpcodeMap.byteOf, eq_comm]

/-- 0x00 is no opcode of a map that rule R65 allows. -/
theorem decodeOpcodeWith_zero {m : OpcodeMap} (h : m.valid = true) : decodeOpcodeWith m 0 = none := by
  cases hd : decodeOpcodeWith m 0 with
  | none => rfl
  | some mn =>
    have e := decodeOpcodeWith_some hd
    simp [OpcodeMap.valid, OpcodeMap.values] at h
    cases mn <;> simp_all [OpcodeMap.byteOf]

/-- A run goes on behind a step. -/
theorem runForWith_next {m : OpcodeMap} {s t : State} (h : stepWith m s = .next t) (k : Nat) :
    runForWith m (k + 1) s = runForWith m k t := by simp [runForWith, h]

/-- A stopped core stays as it is. -/
theorem runForWith_stopped (m : OpcodeMap) {s : State} (h : s.run ≠ .running) (k : Nat) : runForWith m k s = s := by
  cases k with
  | zero => rfl
  | succ k =>
    cases hr : s.run with
    | running => exact absurd hr h
    | halted  => simp [runForWith, stepWith, hr]
    | faulted => simp [runForWith, stepWith, hr]

end Sys2Proof.Machine
end

