-- ==== Sys2Proof/Tests/Slice0.lean ====
section
/-! SUPPORT. The model's own tests. Expected results are those of spec/95_test_vectors.md, by the number each comment
names; the words are written out from rules R60, R62, R66 and R72. After them one witness per statement that has
hypotheses: concrete states and operands that meet all of them together, each clause at its boundaries. -/

namespace Sys2Proof.Tests

open Sys2Proof.Machine

/-- The reset state with `pc` moved and bytes placed there. -/
def loaded (pc : Addr) (bytes : List Byte) : State :=
  ({ State.reset with pc := pc } : State).placeAt pc.toNat bytes

/-- Another map that rule R65 allows. -/
def otherMap : OpcodeMap := { Config.opcodeMap with prn := 0x7F, pop := 0x47, ret := 0x3F, hlt := 0x11 }

/-- The answer is a next state, and `p` holds of it. -/
def nextIs (r : Result) (p : State → Bool) : Bool :=
  match r with
  | .next t    => p t
  | .fault _   => false
  | .refused _ => false

/-- `r` is the next state `s` after the fault with this record and nothing else changed (rule R168). -/
def faultsAs (r : Result) (s : State) (f : FaultRecord) : Bool :=
  nextIs r fun t => t == { s with run := .faulted, fault := f }

/-! ## Well-formedness: one ill-formed term for each check -/

theorem test_wf_refuses_ldi : Instr.wf (.ldi 8 0) = false := by decide
theorem test_wf_refuses_prn : Instr.wf (.prn 255) = false := by decide
theorem test_wf_refuses_mul_first : Instr.wf (.mul 8 0) = false := by decide
theorem test_wf_refuses_mul_second : Instr.wf (.mul 0 8) = false := by decide
theorem test_wf_refuses_add_first : Instr.wf (.add 128 7) = false := by decide
theorem test_wf_refuses_add_second : Instr.wf (.add 7 128) = false := by decide
theorem test_wf_refuses_push : Instr.wf (.push 8) = false := by decide
theorem test_wf_refuses_pop : Instr.wf (.pop 9) = false := by decide
theorem test_wf_refuses_call : Instr.wf (.call 10) = false := by decide

/-- The immediate of LDI is never refused (rule R63). -/
theorem test_wf_takes_any_immediate : Instr.wf (.ldi 7 255) = true := by decide

/-- A map with a repeated value, with 0x00, or with a wrong operand count in bits 7:6 is no map (rule R65). -/
theorem test_map_refused : ({ Config.opcodeMap with pop := 0x45 } : OpcodeMap).valid = false ∧
    ({ Config.opcodeMap with ret := 0x00 } : OpcodeMap).valid = false ∧
    ({ Config.opcodeMap with hlt := 0x81 } : OpcodeMap).valid = false := by decide

/-! ## Decoding: every constructor's word, bit by bit -/

theorem test_decode_ldi : decode [0b10000010, 0b00000110, 0b11111111] = .ok (.ldi 6 255, []) := by decide
theorem test_decode_prn : decode [0b01000111, 0b00000111] = .ok (.prn 7, []) := by decide
theorem test_decode_mul : decode [0b10100010, 0b00000001, 0b00000100] = .ok (.mul 1 4, []) := by decide
theorem test_decode_add : decode [0b10100000, 0b00000100, 0b00000001] = .ok (.add 4 1, []) := by decide
theorem test_decode_push : decode [0b01000101, 0b00000010] = .ok (.push 2, []) := by decide
theorem test_decode_pop : decode [0b01000110, 0b00000011] = .ok (.pop 3, []) := by decide
theorem test_decode_call : decode [0b01010000, 0b00000101] = .ok (.call 5, []) := by decide
theorem test_decode_ret : decode [0b00010001, 0b10000010] = .ok (.ret, [0x82]) := by decide
theorem test_decode_hlt : decode [0b00000001] = .ok (.hlt, []) := by decide

/-- The bytes next to MUL and ADD, 0x00 and an operand byte are no opcodes (rule R68, vectors F1, F3, F5). -/
theorem test_decode_rejects : ([0x00, 0xA1, 0xA3, 0x08, 0x02, 0xFF] : List Byte).map (fun b => decode [b, 0, 1])
    = ([0x00, 0xA1, 0xA3, 0x08, 0x02, 0xFF] : List Byte).map (fun b => .error (.reject (.unknownOpcode b))) := by decide

theorem test_decode_truncated : decode [0x82, 0x00] = .error (.reject (.operandsMissing 2)) ∧
    decode [0x47] = .error (.reject (.operandsMissing 1)) ∧ decode [] = .error .noBytes := by decide

/-- Another map, the same operands (rules R64, R66): the count comes from the matched opcode. -/
theorem test_decode_other_map : decodeWith { Config.opcodeMap with ret := 0x3F } [0x3F, 0x11] = .ok (.ret, [0x11]) := by
  decide

theorem test_table_word : decodeTableWord 24 0x080082 = some (.ldi 0 8) ∧ decodeTableWord 8 0x82 = some (.ldi 0 0) ∧
    decodeTableWord 16 0x0147 = some (.prn 1) ∧ decodeTableWord 8 0xA1 = none := by decide

/-- The placed word is run by the first step after reset, and at address 255 as well. -/
theorem test_placed_word : nextIs (step (State.reset.withFetchWord 24 0x080082)) (fun t => t.getReg 0 == 8 && t.pc == 3)
    = true ∧ nextIs (step ((loaded 255 []).withFetchWord 8 0x01)) (fun t => t.run == .halted) = true := by decide

/-! ## One step, at most two tests an instruction -/

/-- L4: LDI R7 moves the stack pointer. -/
theorem test_ldi_sp : nextIs (step (loaded 0 [0x82, 0x07, 0x20]))
    (fun t => t == { (loaded 0 [0x82, 0x07, 0x20]).setReg 7 0x20 with pc := 3 }) = true := by decide

/-- L6: the last operand byte at 255 is too far. -/
theorem test_ldi_past_the_end : faultsAs (step (loaded 253 [0x82, 0x00, 0x01])) (loaded 253 [0x82, 0x00, 0x01])
    ⟨.addressOutOfRange, .mem, 253, 0⟩ = true := by decide

/-- N4: PRN R7 prints the stack pointer. -/
theorem test_prn_sp : nextIs (step (loaded 0 [0x47, 0x07]))
    (fun t => t == { loaded 0 [0x47, 0x07] with out := [244], pc := 2 }) = true := by decide

/-- N8: a register operand is a whole byte. -/
theorem test_prn_bad_register : faultsAs (step (loaded 0 [0x47, 0xFF])) (loaded 0 [0x47, 0xFF])
    ⟨.addressOutOfRange, .reg, 0, 255⟩ = true := by decide

/-- M7: the product wraps, the second operand stays. -/
theorem test_mul_wraps : nextIs (step (((loaded 0 [0xA2, 0, 1]).setReg 0 100).setReg 1 3))
    (fun t => t.getReg 0 == 44 && t.getReg 1 == 3 && t.pc == 3) = true := by decide

/-- M9: `a = b` squares. -/
theorem test_mul_squares : nextIs (step ((loaded 0 [0xA2, 3, 3]).setReg 3 3)) (fun t => t.getReg 3 == 9) = true := by
  decide

/-- A9: ADD R7 moves the stack pointer. -/
theorem test_add_sp : nextIs (step ((loaded 0 [0xA0, 7, 0]).setReg 0 4))
    (fun t => t.sp == 0xF8 && t.getReg 0 == 4 && t.pc == 3) = true := by decide

/-- Section 2.3, faults: the first bad operand is reported although both are. -/
theorem test_add_first_bad_operand : faultsAs (step (loaded 0 [0xA0, 0x09, 0xC8])) (loaded 0 [0xA0, 0x09, 0xC8])
    ⟨.addressOutOfRange, .reg, 0, 9⟩ = true := by decide

/-- H2: the stack pointer wraps below 0. -/
theorem test_push_wraps : nextIs (step (((loaded 0 [0x45, 0x00]).setReg 0 0xAB).setReg 7 0))
    (fun t => t.sp == 0xFF && t.memRead 0xFF == 0xAB && t.pc == 2) = true := by decide

/-- H3: PUSH R7 stores the new stack pointer. -/
theorem test_push_sp : nextIs (step (loaded 0 [0x45, 0x07]))
    (fun t => t.sp == 0xF3 && t.memRead 0xF3 == 0xF3 && t.pc == 2) = true := by decide

/-- O2: the stack pointer wraps above 255. -/
theorem test_pop_wraps : nextIs (step (((loaded 0 [0x46, 0x00]).setReg 7 0xFF).memWrite 0xFF 0x5A))
    (fun t => t.getReg 0 == 0x5A && t.sp == 0 && t.pc == 2 && t.memRead 0xFF == 0x5A) = true := by decide

/-- O3: POP R7 loads, then increments what it loaded. -/
theorem test_pop_sp : nextIs (step (((loaded 0 [0x46, 0x07]).setReg 7 0xF3).memWrite 0xF3 0x20))
    (fun t => t.sp == 0x21 && t.pc == 2) = true := by decide

/-- C2: CALL R7 jumps to the new stack pointer. -/
theorem test_call_sp : nextIs (step (loaded 0x10 [0x50, 0x07]))
    (fun t => t.sp == 0xF3 && t.memRead 0xF3 == 0x12 && t.pc == 0xF3) = true := by decide

/-- C3: the return address 255 fits. -/
theorem test_call_at_253 : nextIs (step (loaded 253 [0x50, 0x00]))
    (fun t => t.sp == 0xF3 && t.memRead 0xF3 == 0xFF && t.pc == 0) = true := by decide

/-- T2: the stack pointer wraps above 255. -/
theorem test_ret_wraps : nextIs (step (((loaded 0 [0x11]).setReg 7 0xFF).memWrite 0xFF 0x5A))
    (fun t => t.pc == 0x5A && t.sp == 0) = true := by decide

/-- T4: RET may stand at 255. -/
theorem test_ret_at_255 : nextIs (step (loaded 255 [0x11])) (fun t => t.pc == 0 && t.sp == 0xF5) = true := by decide

/-- X2: HLT changes `run` alone. -/
theorem test_hlt_at_255 : nextIs (step (loaded 255 [0x01])) (fun t => t == { loaded 255 [0x01] with run := .halted })
    = true := by decide

/-- F3: 0xA1 is not SUB. -/
theorem test_unknown_opcode : faultsAs (step (loaded 0 [0xA1, 0, 1])) (loaded 0 [0xA1, 0, 1])
    ⟨.unknownOpcode, .mem, 0, 0xA1⟩ = true := by decide

/-- L7, N7: a lone opcode byte at 255 is the range fault of its own operand count. -/
theorem test_opcode_at_255 : faultsAs (step (loaded 255 [0x82])) (loaded 255 [0x82]) ⟨.addressOutOfRange, .mem, 255, 2⟩
    = true ∧ faultsAs (step (loaded 255 [0x47])) (loaded 255 [0x47]) ⟨.addressOutOfRange, .mem, 255, 1⟩ = true := by decide

/-! ## ALU block, memory form, image text, rendering, ports -/

/-- U2, U4, U6, U8, U12, U15. -/
theorem test_alu : alu 0b0001 5 7 = .ok 254 ∧ alu 0b0001 0 255 = .ok 1 ∧ alu 0b0001 250 10 = .ok 240 ∧
    alu 0b0011 255 16 = .ok 15 ∧ alu 0b0011 5 0 = .error .divideByZero ∧
    alu 0b1111 1 1 = .error (.unsupportedOperation 15) := by decide

/-- Writing what an unlisted cell reads as takes the cell out. -/
theorem test_memory_form : Memory.write (Memory.write (Memory.write [] 7 1) 3 2) 7 0 = [(3, 2)] ∧
    Memory.wf [(3, 2), (3, 1)] = false ∧ Memory.wf [(3, 0)] = false ∧ Memory.wf [(256, 1)] = false := by decide

/-- Section 2.12, the image lines that are read: one byte, indented with a comment, a short literal, none, none. -/
theorem test_image_text : parseImageWith '#' "10000010\n  00001000   # eight\n1\n# only a comment\n\n".toList
    = .ok [0x82, 0x08, 0x01] := by decide

/-- Section 2.12, the tokens that are refused. -/
theorem test_image_text_refused : ["100000000", "0b1010", "12", "1010 1010"].map (fun l => parseImageWith '#' l.toList)
    = List.replicate 4 (.error (.malformedLiteral 1)) := by decide

/-- Section 2.12: `0\n7\n255\n`. -/
theorem test_render : render [0, 7, 255] = [0x30, 0x0A, 0x37, 0x0A, 0x32, 0x35, 0x35, 0x0A] ∧ render [] = [] := by decide

/-- Rule R45 for POP (O1), and the output port of N4. -/
theorem test_ports : stepAccesses ((loaded 8 [0x46, 0x01]).setReg 7 0xF3) = [.read 8, .read 9, .read 0xF3] ∧
    outPort (loaded 0 [0x47, 0x07]) = some 244 ∧ outPort (loaded 0 [0x45, 0x07]) = none := by decide

/-- Rule R5: under another map the same byte is another instruction, on the memory port and the output port and in a
run; and the image text, the reset values and the comment marker are arguments of the boot. -/
theorem test_parameters : stepAccessesWith otherMap ((loaded 8 [0x47, 0x01]).setReg 7 0xF3) = [.read 8, .read 9, .read 0xF3]
    ∧ outPortWith otherMap (loaded 0 [0x7F, 0x07]) = some 244 ∧ outPortWith otherMap (loaded 0 [0x47, 0x07]) = none ∧
    outSamplesWith otherMap 2 (loaded 0 [0x7F, 0x07, 0x11]) = [244] ∧
    (runForWith otherMap 2 (loaded 0 [0x7F, 0x07, 0x11])).run = .halted ∧
    (match bootTextWith ';' (Vector.replicate 7 5) 9 "10 ; two".toList with
      | .ok s    => s.memRead 0 == 2 && s.sp == 9 && s.getReg 6 == 5
      | .error _ => false) = true := by decide

/-- Rule R144 after F2. -/
theorem test_status_port : nextIs (step (loaded 0 [0xFF])) (fun t => t.statusPort == ⟨false, true, 1, 0, 0, 0xFF⟩)
    = true := by decide

/-! ## Witnesses: the hypotheses of each statement are met, at the boundaries of each clause -/

theorem witness_ResetHoldsTheListedValues : (0 : RegIdx) ≠ spIdx ∧ (6 : RegIdx) ≠ spIdx := by decide

set_option maxRecDepth 20000 in
/-- The empty image, a full one, an image of one byte and the cells after it. -/
theorem witness_BootLoadsTheImageOverZeroedMemory : ([] : List Byte).length ≤ 256 ∧
    (List.replicate 256 (1 : Byte)).length ≤ 256 ∧ 255 < (List.replicate 256 (1 : Byte)).length ∧
    ([1] : List Byte).length ≤ (1 : Addr).toNat ∧ ([1] : List Byte).length ≤ (255 : Addr).toNat := by decide

set_option maxRecDepth 20000 in
theorem witness_RejectedImagesNeverBoot : 256 < (List.replicate 257 (0 : Byte)).length ∧
    parseImageWith Config.commentMarker "2".toList = .error (.malformedLiteral 1) := by decide

set_option maxRecDepth 20000 in
/-- A text of 257 bytes is read, and is too large. -/
theorem witness_RejectedImagesNeverBoot_text :
    parseImageWith Config.commentMarker (List.replicate 257 ['1', '\n']).flatten = .ok (List.replicate 257 1) ∧
    256 < (List.replicate 257 (1 : Byte)).length := by decide

theorem witness_ImageTextReadsBackItsBytes : '#' ≠ '0' ∧ '#' ≠ '1' ∧ '#' ≠ '\n' ∧ ∀ l ∈ ([(0, []), (255, "end".toList)] : List (Byte × List Char)), '\n' ∉ l.2 := by
  decide

theorem witness_OnlyHltEndsARunNormally : nextIs (step (loaded 255 [0x01])) (fun t => t.run == .halted) = true := by decide

/-- The image of program P7, at its end and at the last address; and the empty image. -/
theorem witness_OnlyHltEndsARunNormally_end : ∃ s₀ : State, boot [0x82, 0x00, 0x05, 0x47, 0x00] = .ok s₀ ∧
    ∀ a ∈ ([5, 255] : List Addr), 5 ≤ a.toNat ∧ ({ s₀ with pc := a } : State).memRead a = s₀.memRead a ∧
      ({ s₀ with pc := a } : State).run = .running := ⟨_, rfl, by decide⟩

theorem witness_OnlyHltEndsARunNormally_map : Config.opcodeMap.valid = true ∧ otherMap.valid = true := by decide

theorem witness_MemoryReadsTheLatestWrite : Memory.wf (loaded 0 [1, 2]).mem = true := by decide

theorem witness_MemoriesThatReadAlikeAreEqual : ∃ m n : Memory, Memory.wf m = true ∧ Memory.wf n = true ∧ m ≠ [] ∧
    ∀ a : Nat, a < 256 → Memory.read m a = Memory.read n a := ⟨[(0, 1), (255, 2)], [(0, 1), (255, 2)], by decide, by decide, by decide, fun _ _ => rfl⟩

theorem witness_AluAddIsTheSumModulo256 : aluOpOf 0b0000 = .add := by decide

theorem witness_AluMulIsTheProductModulo256 : aluOpOf 0b0010 = .mul := by decide

theorem witness_AluSubAndDivAndTheZeroDivisor : (1 : Byte) ≠ 0 ∧ (255 : Byte) ≠ 0 ∧ State.reset.getReg 0 = 0 := by decide

theorem witness_UnsupportedSelectFaultsAndIsUnreachable : aluOpOf 0b0100 = .other 4 ∧ aluOpOf 0b1111 = .other 15 ∧
    nextIs (stepWith Config.opcodeMap (loaded 0 [0xA1])) (fun t => t.run == .faulted) = true ∧
    (loaded 0 [0xA1]).fault.cause ≠ .unsupportedOperation := by decide

theorem witness_AluWritesOnlyItsDestination : alu selAdd (State.reset.getReg 7) (State.reset.getReg 7) = .ok 0xE8 ∧
    alu 0b0011 (State.reset.getReg 7) (State.reset.getReg 0) = .error .divideByZero := by decide

theorem witness_LdiLoadsTheImmediate : (7 : Byte).toNat = (7 : RegIdx).val ∧ (loaded 252 []).pc.toNat ≤ 252 ∧
    252 < (loaded 253 []).pc.toNat ∧ 252 < (loaded 255 []).pc.toNat ∧ 7 < (8 : Byte).toNat ∧ 7 < (255 : Byte).toNat := by decide

/-- The last place where LDI and PRN fit behind each other. -/
theorem witness_LdiLoadsTheImmediate_print : Config.opcodeMap.valid = true ∧ (loaded 250 [0x82, 7, 9, 0x47, 7]).run = .running ∧ (7 : Byte).toNat ≤ 7 ∧
    (loaded 250 [0x82, 7, 9, 0x47, 7]).pc.toNat ≤ 250 ∧
    (loaded 250 [0x82, 7, 9, 0x47, 7]).holdsAt 250
      (encodeWith Config.opcodeMap (.ldi 7 9) ++ encodeWith Config.opcodeMap (.prn 7)) = true := by decide

theorem witness_PrnEmitsTheRegister : (7 : Byte).toNat = (7 : RegIdx).val ∧ (loaded 253 []).pc.toNat ≤ 253 ∧
    253 < (loaded 254 []).pc.toNat ∧ 7 < (8 : Byte).toNat ∧ (loaded 251 []).pc.toNat ≤ 251 ∧
    nextIs (exec (.prn 7) (loaded 251 [])) (fun t => t.out == [244]) = true := by decide

theorem witness_MulMultipliesIntoRegA : (0 : Byte).toNat = (0 : RegIdx).val ∧ (7 : Byte).toNat = (7 : RegIdx).val ∧
    (loaded 252 []).pc.toNat ≤ 252 ∧ 252 < (loaded 253 []).pc.toNat ∧ 7 < (8 : Byte).toNat := by decide

theorem witness_AddAddsIntoRegA : (0 : Byte).toNat = (0 : RegIdx).val ∧ (7 : Byte).toNat = (7 : RegIdx).val ∧
    (loaded 252 []).pc.toNat ≤ 252 ∧ 252 < (loaded 253 []).pc.toNat ∧ 7 < (8 : Byte).toNat := by decide

theorem witness_PushStoresBelowTheStackPointer : Memory.wf (loaded 253 [1]).mem = true ∧
    (7 : Byte).toNat = (7 : RegIdx).val ∧ (loaded 253 [1]).pc.toNat ≤ 253 ∧ 253 < (loaded 254 []).pc.toNat ∧
    7 < (8 : Byte).toNat := by decide

theorem witness_PopLoadsFromTheStackPointer : (7 : Byte).toNat = (7 : RegIdx).val ∧ (0 : Byte).toNat = (0 : RegIdx).val ∧
    (0 : RegIdx) ≠ spIdx ∧ (loaded 253 []).pc.toNat ≤ 253 ∧ 253 < (loaded 254 []).pc.toNat ∧ 7 < (8 : Byte).toNat := by decide

theorem witness_CallStoresTheReturnAddressAndJumps : Memory.wf (loaded 253 [1]).mem = true ∧
    (7 : Byte).toNat = (7 : RegIdx).val ∧ (loaded 253 [1]).pc.toNat ≤ 253 ∧ 253 < (loaded 254 []).pc.toNat ∧
    7 < (8 : Byte).toNat := by decide

theorem witness_RetJumpsToTheStackTop : Memory.wf (loaded 253 [1]).mem = true ∧ (6 : Byte).toNat = (6 : RegIdx).val ∧
    (6 : RegIdx) ≠ spIdx ∧ (loaded 253 [1]).pc.toNat ≤ 253 := by decide

theorem witness_HltHaltsAndChangesNothingElse : Config.opcodeMap.valid = true ∧ (loaded 255 [0x01]).run = .running ∧
    (loaded 255 [0x01]).fetchOpcode = Config.opcodeMap.hlt := by decide

/-- A state and an instruction that completes, and one that faults. -/
theorem witness_EveryInstructionWritesOnlyItsRegisters : nextIs (exec (.pop 0) (loaded 253 [])) (fun t => t.sp == 0xF5)
    = true ∧ nextIs (exec (.pop 0) (loaded 254 [])) (fun t => t.run == .faulted) = true := by decide

theorem witness_OnlyPushAndCallStore : Memory.wf (loaded 253 [1]).mem = true ∧
    nextIs (exec (.push 0) (loaded 253 [1])) (fun _ => true) = true ∧
    storeAddress (.push 0) (loaded 253 [1]) = some 0xF3 ∧ storeAddress (.call 0) (loaded 253 [1]) = some 0xF3 ∧
    nextIs (exec .hlt (loaded 253 [1])) (fun _ => true) = true ∧ storeAddress .hlt (loaded 253 [1]) = none := by decide

/-- Every constructor passes its checks at the last address where it may stand. -/
theorem witness_CheckedInstructionsComplete :
    ([.ldi 7 255, .mul 7 0, .add 0 7] : List Instr).all (executesNormally · (loaded 252 [])) = true ∧
    ([.prn 7, .push 7, .pop 7, .call 7] : List Instr).all (executesNormally · (loaded 253 [])) = true ∧
    ([.ret, .hlt] : List Instr).all (executesNormally · (loaded 255 [])) = true := by decide

theorem witness_UncheckedInstructionsFaultInOrder : (Instr.ldi 9 0).operandCount ≠ 0 ∧
    255 < (loaded 253 []).pc.toNat + 1 + (Instr.ldi 9 0).operandCount ∧
    (loaded 252 []).pc.toNat + 1 + (Instr.add 7 9).operandCount ≤ 255 ∧
    (Instr.add 7 9).regOperands.find? (fun b => !validReg b) = some 9 ∧
    (Instr.add 8 9).regOperands.find? (fun b => !validReg b) = some 8 := by decide

theorem witness_PcChangesOnlyAsListed : executesNormally (.call 7) (loaded 253 []) = true ∧
    nextIs (exec (.call 7) (loaded 253 [])) (fun t => t.pc == 0xF3) = true ∧ (7 : Byte).toNat = (7 : RegIdx).val ∧
    executesNormally (.ldi 0 1) (loaded 252 []) = true ∧
    nextIs (exec (.ldi 0 1) (loaded 252 [])) (fun t => t.pc == 255) = true ∧
    nextIs (stepWith Config.opcodeMap (loaded 252 [0x82, 0, 1])) (fun t => t.pc != 252) = true := by decide

/-- The stack pointer at 0, which wraps, and over the program. -/
theorem witness_StackCollisionIsNoFault : Memory.wf ((loaded 253 [1]).setReg 7 0).mem = true ∧
    ((loaded 253 [1]).setReg 7 0).sp = 0 ∧ ((loaded 253 [1]).setReg 7 0).pc.toNat ≤ 253 ∧
    (0 : Byte).toNat = (0 : RegIdx).val ∧ ((loaded 6 [0x45, 0, 0x47]).setReg 7 9).pc.toNat ≤ 253 ∧
    Memory.wf ((loaded 6 [0x45, 0, 0x47]).setReg 7 9).mem = true := by decide

theorem witness_DecodeInvertsEncode : Config.opcodeMap.valid = true ∧
    ({ Config.opcodeMap with ret := 0x3F } : OpcodeMap).valid = true := by decide

theorem witness_EncodeInvertsDecode : decodeWith Config.opcodeMap [0xA2, 8, 255, 1] = .ok (.mul 8 255, [1]) := by decide

theorem witness_LengthComesFromTheMatchedOpcode : decodeWith Config.opcodeMap [0x82, 0, 1, 2] = .ok (.ldi 0 1, [2]) ∧
    decodeWith Config.opcodeMap [0x01] = .ok (.hlt, []) := by decide

theorem witness_StepRunsTheDecodedInstruction : (loaded 252 [0x82, 0, 1]).run = .running ∧
    DecodesTo Config.opcodeMap (loaded 252 [0x82, 0, 1]) (.ldi 0 1) ∧ Config.opcodeMap.valid = true ∧
    (loaded 252 [0x82, 0, 1]).holdsAt 252 (encodeWith Config.opcodeMap (.ldi 0 1)) = true :=
  ⟨by decide, ⟨[], by decide⟩, by decide, by decide⟩

/-- An instruction that ends at address 255 is read whole, and faults. -/
theorem witness_StepRunsTheDecodedInstruction_end : DecodesTo Config.opcodeMap (loaded 253 [0x82, 0, 1]) (.ldi 0 1) ∧
    DecodesTo Config.opcodeMap (loaded 255 [0x11]) .ret := ⟨⟨[], by decide⟩, ⟨[], by decide⟩⟩

theorem witness_IllegalOpcodeFaults : State.reset.run = .running ∧
    decodeOpcodeWith Config.opcodeMap State.reset.fetchOpcode = none ∧ (loaded 255 [0xA3]).run = .running ∧
    decodeOpcodeWith Config.opcodeMap (loaded 255 [0xA3]).fetchOpcode = none := by decide

theorem witness_StepIsThePseudocodeOfTheSpec : (loaded 255 [0x82]).run = .running := by decide

theorem witness_PlacedWordIsTheNextInstruction : Memory.wf (loaded 255 [7]).mem = true ∧ (loaded 255 [7]).run = .running ∧
    decodeTableWord 24 0x080082 = some (.ldi 0 8) ∧ decodeTableWord 8 0x01 = some .hlt := by decide

/-- The stack pointer just above the next instruction (H4), and a call of the cell it stores to (C2). -/
theorem witness_StoresAreSeenByTheNextFetch : Memory.wf ((loaded 6 [0x45, 0]).setReg 7 9).mem = true ∧
    nextIs (exec (.push 0) ((loaded 6 [0x45, 0]).setReg 7 9)) (fun _ => true) = true ∧
    ((loaded 6 [0x45, 0]).setReg 7 9).decSp.sp = ((loaded 6 [0x45, 0]).setReg 7 9).nextPc 1 ∧
    nextIs (exec (.call 7) (loaded 253 [1])) (fun _ => true) = true ∧
    (loaded 253 [1]).decSp.sp = (loaded 253 [1]).decSp.getReg 7 ∧ Memory.wf (loaded 253 [1]).mem = true ∧
    (loaded 253 [1]).pc.toNat ≤ 253 ∧ (7 : Byte).toNat = (7 : RegIdx).val := by decide

/-- One step for each of the three records. -/
theorem witness_FaultsArePrecise : nextIs (step (loaded 0 [0xA1])) (fun t => t.run == .faulted) = true ∧
    nextIs (step (loaded 255 [0x82])) (fun t => t.run == .faulted) = true ∧
    nextIs (step (loaded 252 [0xA0, 7, 8])) (fun t => t.run == .faulted) = true := by decide

theorem witness_FaultedCoreNeverResumes : ({ State.reset with run := .faulted } : State).run = .faulted ∧
    (runForWith Config.opcodeMap 1 State.reset).run = .faulted := by decide

/-- A step that goes on, one that halts, one that faults. -/
theorem witness_RunStateMovesOnlyAsListed : nextIs (step (loaded 0 [0x82, 0, 1])) (fun t => t.run == .running) = true ∧
    nextIs (step (loaded 0 [0x01])) (fun t => t.run == .halted) = true ∧
    nextIs (step (loaded 0 [0x00])) (fun t => t.run == .faulted) = true := by decide

theorem witness_BootMeetsTheInvariant : ∃ s, bootWith (Vector.replicate 7 255) 0 [0x82, 0, 8] = .ok s := ⟨_, rfl⟩

theorem witness_StepKeepsTheInvariant : (loaded 253 [0x45, 7]).Inv ∧
    nextIs (step (loaded 253 [0x45, 7])) (fun t => t.run == .running) = true ∧
    nextIs (step (loaded 254 [0x45, 7])) (fun t => t.run == .faulted) = true := by decide

/-- A run that halts, one that faults (the endless one is program P6). -/
theorem witness_EveryRunHasOneOfThreeFates : (loaded 0 [0x01]).run = .running ∧ (runForWith Config.opcodeMap 1 (loaded 0 [0x01])).run = .halted ∧
    (runForWith Config.opcodeMap 1 (loaded 0 [0x01])).run ≠ .running ∧ 1 ≤ 2 ∧ State.reset.run = .running := by decide

theorem witness_OutputGrowsByPrnOnly : nextIs (step (loaded 253 [0x47, 7])) (fun t => t.out != (loaded 253 [0x47, 7]).out)
    = true := by decide

/-- A step that prints, and one that faults. -/
theorem witness_OutAndFaultRecordAreNeverRead : nextIs (step (loaded 0 [0x47, 7])) (fun t => t.run == .running) = true ∧
    nextIs (step (loaded 0 [0x47, 8])) (fun t => t.run == .faulted) = true := by decide

theorem witness_OutputPortCarriesTheStream : (loaded 253 [0x47, 7]).run = .running ∧
    DecodesTo Config.opcodeMap (loaded 253 [0x47, 7]) (.prn 7) ∧ (7 : Byte).toNat = (7 : RegIdx).val ∧
    (loaded 253 [0x47, 7]).pc.toNat ≤ 253 := ⟨by decide, ⟨[0], by decide⟩, by decide, by decide⟩

theorem witness_OutputPortCarriesTheStream_none : ¬ ∃ reg, DecodesTo Config.opcodeMap State.reset (.prn reg) := by
  rintro ⟨_, _, h⟩
  have : decodeAtWith Config.opcodeMap State.reset.fetchOpcode State.reset.operandWindow = .error (.unknownOpcode 0) := by decide
  simp [this] at h

/-- The invariant in each of the three run states. -/
theorem witness_StatusPortShowsTheFaultOnlyWhenFaulted : State.reset.Inv ∧
    State.reset.halt.Inv ∧ State.reset.halt.run ≠ .running := by decide

theorem witness_StatusPortShowsTheFaultOnlyWhenFaulted_faulted :
    (State.reset.raise (.addressOutOfRangeReg 8)).Inv ∧ (State.reset.raise (.unknownOpcode 0)).run = .faulted := by decide

/-- Every constructor decodes and passes its checks at the last address where it may stand. -/
theorem witness_AccessesAreThoseOfTheTable : nextIs (step (loaded 0 [0x45, 7])) (fun _ => true) = true ∧
    decodeAtWith Config.opcodeMap (loaded 252 [0xA0, 0, 7]).fetchOpcode (loaded 252 [0xA0, 0, 7]).operandWindow
      = .ok (.add 0 7, []) ∧ executesNormally (.add 0 7) (loaded 252 [0xA0, 0, 7]) = true ∧
    decodeAtWith Config.opcodeMap (loaded 253 [0x45, 7]).fetchOpcode (loaded 253 [0x45, 7]).operandWindow
      = .ok (.push 7, [0]) ∧ executesNormally (.push 7) (loaded 253 [0x45, 7]) = true ∧
    decodeAtWith Config.opcodeMap (loaded 255 [0x11]).fetchOpcode (loaded 255 [0x11]).operandWindow = .ok (.ret, []) ∧
    executesNormally .ret (loaded 255 [0x11]) = true := by decide

theorem witness_RenderingIsInjective : (47 : Byte).toNat < 48 ∧ 57 < (58 : Byte).toNat ∧
    renderWith [58] [1, 2] = renderWith [58] ([1] ++ [2]) ∧ render [1, 2] = render ([1] ++ [2]) ∧ (decimal 0).head? = some 0x30 ∧
    0x35 ∈ decimal 255 := by decide

theorem witness_PushThenPopRestores : Memory.wf ((loaded 251 [1]).setReg 7 0).mem = true ∧
    (7 : Byte).toNat = (7 : RegIdx).val ∧ (0 : Byte).toNat = (0 : RegIdx).val ∧ (6 : Byte).toNat = (6 : RegIdx).val ∧
    (0 : RegIdx) ≠ spIdx ∧ (6 : RegIdx) ≠ spIdx ∧ ((loaded 251 [1]).setReg 7 0).pc.toNat ≤ 251 := by decide

/-- The subroutine leaves the stack pointer and the cell alone: the state right after the CALL. -/
theorem witness_RetReturnsBehindItsCall : Memory.wf (loaded 253 [0x50, 0]).mem = true ∧
    executesNormally (.call 0) (loaded 253 [0x50, 0]) = true ∧
    nextIs (exec (.call 0) (loaded 253 [0x50, 0])) (fun t => t.sp == 0xF3) = true := by decide

/-- A CALL whose subroutine is a RET alone: `loaded 6 [0x50, 1]` with 0x11 at the target (C1). -/
def calling : State := ((loaded 6 [0x50, 1]).setReg 1 0x0B).memWrite 0x0B 0x11

/-- `calling` after its CALL. -/
def called : State := ((calling.setReg 7 0xF3).memWrite 0xF3 0x08).setPc 0x0B

theorem witness_NestedCallsReturnInOrder : Memory.wf calling.mem = true ∧ DecodesTo Config.opcodeMap calling (.call 1) ∧
    executesNormally (.call 1) calling = true ∧ stepWith Config.opcodeMap calling = .next called ∧
    Balanced Config.opcodeMap 255 called called ∧
    DecodesTo Config.opcodeMap called .ret ∧ stepWith Config.opcodeMap called = .next ((called.setReg 7 0xF4).setPc 8) :=
  ⟨by decide, ⟨[0], by decide⟩, by decide, rfl, .done _ _, ⟨[0, 0], by decide⟩, rfl⟩

/-- A balanced run that holds one pair. -/
theorem witness_NestedCallsReturnInOrder_pair : Balanced Config.opcodeMap 1 calling ((called.setReg 7 0xF4).setPc 8) :=
  .pair witness_NestedCallsReturnInOrder.2.1 (by decide) rfl (.done _ _) witness_NestedCallsReturnInOrder.2.2.2.2.2.1 rfl
    (.done _ _)

end Sys2Proof.Tests
end

/-! ## The output stream (rule R10): what an instruction and a step can do to `out`, and O43 -/

namespace Sys2Proof.Machine

/-- An effect keeps `out`, or is that of PRN, which emits its register. -/
theorem Effect.out_cases {s t : State} {i : Instr} (h : Effect s i t) :
    t.out = s.out ∨
    ∃ (a : Byte) (r : RegIdx), i = .prn a ∧ a.toNat = r.val ∧ t.out = (s.emit (s.getReg r)).out := by
  cases h with
  | prn ha _ => exact .inr ⟨_, _, rfl, ha, State.advance_out _ _⟩
  | ldi | mul | add | push | pop | call | ret | hlt => left; simp

/-- An instruction keeps `out`, or is a PRN with a valid operand: a fault emits nothing. -/
theorem exec_out_cases {s t : State} {i : Instr} (h : exec i s = .next t) :
    t.out = s.out ∨
    ∃ (a : Byte) (r : RegIdx), i = .prn a ∧ a.toNat = r.val ∧ t.out = (s.emit (s.getReg r)).out := by
  obtain ⟨-, effect⟩ | ⟨-, e, -, rfl⟩ := exec_cases h
  · exact effect.out_cases
  · exact .inl (State.raise_out s e)

/-- A step keeps `out`, or runs a PRN with a valid operand: rejected bytes emit nothing. -/
theorem stepWith_out_cases {m : OpcodeMap} {s t : State} (h : stepWith m s = .next t) :
    t.out = s.out ∨
    ∃ (a : Byte) (r : RegIdx), DecodesTo m s (.prn a) ∧ a.toNat = r.val ∧ t.out = (s.emit (s.getReg r)).out := by
  obtain ⟨-, ⟨i, decodes, ran⟩ | ⟨reject, -, rfl⟩⟩ := stepWith_cases h
  · obtain kept | ⟨a, r, rfl, ha, emitted⟩ := exec_out_cases ran
    · exact .inl kept
    · exact .inr ⟨a, r, decodes, ha, emitted⟩
  · exact .inl (State.raise_out s _)

/-- Settles O43: what a step can do to `out` leaves PRN alone once `out` has changed. -/
theorem outputGrowsByPrnOnly : Obligations.OutputGrowsByPrnOnly :=
  ⟨State.emit_out, fun _ _ _ stepped changed => (stepWith_out_cases stepped).resolve_left changed⟩

end Sys2Proof.Machine

/-! ## What one step leads to: the effect of the decoded instruction or the entry of one fault (rules R80 to R88) -/

namespace Sys2Proof.Machine

/-- A RUNNING core runs the instruction its bytes decode to. -/
theorem DecodesTo.stepWith_eq {m : OpcodeMap} {s : State} {i : Instr} (decodes : DecodesTo m s i)
    (running : s.run = .running) : stepWith m s = exec i s := by
  obtain ⟨rest, hd⟩ := decodes
  simp only [stepWith, running, hd]

/-- A RUNNING core faults on bytes the decoder rejects. -/
theorem stepWith_of_rejected {m : OpcodeMap} {s : State} {r : Reject}
    (rejected : decodeAtWith m s.fetchOpcode s.operandWindow = .error r) (running : s.run = .running) :
    stepWith m s = .next (s.raise (rejectException s r)) := by
  simp only [stepWith, running, rejected]

/-- The fault of a step: the decoded instruction's first failed check, or the rejection of the bytes at `pc`. -/
inductive StepFault (m : OpcodeMap) (s : State) : Exception → Prop where
  | check {i : Instr} {e : Exception} (decodes : DecodesTo m s i) (failed : FirstFailed s i e) : StepFault m s e
  | reject {r : Reject} (rejected : decodeAtWith m s.fetchOpcode s.operandWindow = .error r) :
      StepFault m s (rejectException s r)

/-- A RUNNING core enters the fault of its step. -/
theorem StepFault.stepWith_eq {m : OpcodeMap} {s : State} {e : Exception} (h : StepFault m s e)
    (running : s.run = .running) : stepWith m s = .next (s.raise e) := by
  cases h with
  | check decodes failed => rw [decodes.stepWith_eq running, failed.exec_eq]
  | reject rejected => exact stepWith_of_rejected rejected running

/-- Inversion of a step down to effects: it began RUNNING, and took the decoded instruction's effect or its fault. -/
theorem stepWith_ends {m : OpcodeMap} {s t : State} (h : stepWith m s = .next t) :
    s.run = .running ∧
    ((∃ i, DecodesTo m s i ∧ Effect s i t) ∨ ∃ e, StepFault m s e ∧ t = s.raise e) := by
  obtain ⟨running, ⟨i, decodes, ran⟩ | ⟨r, rejected, rfl⟩⟩ := stepWith_cases h
  · obtain ⟨-, effect⟩ | ⟨-, e, failed, rfl⟩ := exec_cases ran
    · exact ⟨running, .inl ⟨i, decodes, effect⟩⟩
    · exact ⟨running, .inr ⟨e, .check decodes failed, rfl⟩⟩
  · exact ⟨running, .inr ⟨_, .reject rejected, rfl⟩⟩

/-- A RUNNING core always has a next state (rule R191). -/
theorem stepWith_of_running (m : OpcodeMap) {s : State} (running : s.run = .running) :
    ∃ t, stepWith m s = .next t := by
  cases hd : decodeAtWith m s.fetchOpcode s.operandWindow with
  | ok p =>
    obtain ⟨t, ran, -⟩ := exec_ends p.1 s
    exact ⟨t, (DecodesTo.stepWith_eq ⟨p.2, hd⟩ running).trans ran⟩
  | error r => exact ⟨_, stepWith_of_rejected hd running⟩

end Sys2Proof.Machine

/-! ## The registers an instruction writes (rule R23), and O22 -/

namespace Sys2Proof.Machine

/-- A register outside the list of a valid operand byte is not the one the byte selects. -/
theorem ne_of_notMem_regOf? {b : Byte} {r x : RegIdx} (hb : b.toNat = r.val) (h : x ∉ (regOf? b).toList) :
    x ≠ r := by
  simpa [regOf?_eq_some hb] using h

/-- An effect writes only the registers listed for its instruction. -/
theorem Effect.keepsRegsExcept {s t : State} {i : Instr} (h : Effect s i t) :
    KeepsRegsExcept (writtenRegs i) s t := by
  intro x unlisted
  cases h with
  | ldi ha _ | mul ha _ _ | add ha _ _ =>
    have notTarget := ne_of_notMem_regOf? ha unlisted
    simp [notTarget]
  | pop ha _ =>
    have notSp := List.ne_of_not_mem_cons unlisted
    have notTarget := ne_of_notMem_regOf? ha (List.not_mem_of_not_mem_cons unlisted)
    simp [notSp, notTarget]
  | push | call | ret =>
    have notSp := List.ne_of_not_mem_cons unlisted
    simp [notSp]
  | prn | hlt => simp

/-- Settles O22: an effect writes the listed registers only, and a fault writes none. -/
theorem everyInstructionWritesOnlyItsRegisters : Obligations.EveryInstructionWritesOnlyItsRegisters := by
  intro i s t ran
  obtain ⟨-, effect⟩ | ⟨-, e, -, rfl⟩ := exec_cases ran
  · exact effect.keepsRegsExcept
  · exact fun x _ => State.getReg_raise s e x

end Sys2Proof.Machine

/-! ## The run state (rule R31): what an effect can do to `run` and `fault`, and O39 -/

namespace Sys2Proof.Machine

/-- No effect touches the fault record. -/
theorem Effect.fault_eq {s t : State} {i : Instr} (h : Effect s i t) : t.fault = s.fault := by
  cases h <;> rfl

/-- An effect keeps `run`, or is that of HLT. -/
theorem Effect.run_cases {s t : State} {i : Instr} (h : Effect s i t) :
    t.run = s.run ∨ i = .hlt ∧ t.run = .halted := by
  cases h with
  | hlt => exact .inr ⟨rfl, rfl⟩
  | ldi | prn | mul | add | push | pop | call | ret => exact .inl rfl

/-- Settles O39: HLT is the one effect that moves `run`, and a step exists exactly from RUNNING. -/
theorem runStateMovesOnlyAsListed : Obligations.RunStateMovesOnlyAsListed := by
  refine ⟨fun m s t stepped => ?_, fun m s => ⟨fun stuck running => ?_, fun stopped t stepped => ?_⟩⟩
  · obtain ⟨running, ⟨i, decodes, effect⟩ | ⟨e, -, rfl⟩⟩ := stepWith_ends stepped
    · obtain kept | ⟨rfl, halted⟩ := effect.run_cases
      · exact ⟨running, .inl ⟨kept.trans running, effect.fault_eq⟩⟩
      · exact ⟨running, .inr (.inl ⟨halted, effect.fault_eq, decodes⟩)⟩
    · exact ⟨running, .inr (.inr ⟨e, rfl⟩)⟩
  · obtain ⟨t, stepped⟩ := stepWith_of_running m running
    exact stuck t stepped
  · exact stopped (stepWith_cases stepped).1

end Sys2Proof.Machine

/-! ## `out` and the fault record are written only (rules R32, R33), and O44 -/

namespace Sys2Proof.Machine

/-- `s` with another output stream and another fault record. -/
def State.withOutFault (s : State) (o : List Byte) (f : FaultRecord) : State := { s with out := o, fault := f }

/-- The effect from `s` to `t` appends to `out` bytes that depend on neither `out` nor the fault record, and is the
same effect whatever these two hold. -/
def IgnoresOutFault (s : State) (i : Instr) (t : State) : Prop :=
  ∃ emitted, t.out = s.out ++ emitted ∧
    ∀ o f, Effect (s.withOutFault o f) i (t.withOutFault (o ++ emitted) f)

/-- The case of an effect that emits nothing. -/
theorem IgnoresOutFault.of_silent {s t : State} {i : Instr} (silent : t.out = s.out)
    (same : ∀ o f, Effect (s.withOutFault o f) i (t.withOutFault o f)) : IgnoresOutFault s i t :=
  ⟨[], by simpa using silent, by simpa using same⟩

/-- Every effect ignores `out` and the fault record; PRN alone appends, and what it appends is a register. -/
theorem Effect.ignoresOutFault {s t : State} {i : Instr} (h : Effect s i t) : IgnoresOutFault s i t := by
  cases h with
  | ldi ha hp => exact .of_silent rfl fun _ _ => .ldi ha hp
  | prn ha hp => exact ⟨[_], rfl, fun _ _ => .prn ha hp⟩
  | mul ha hb hp => exact .of_silent rfl fun _ _ => .mul ha hb hp
  | add ha hb hp => exact .of_silent rfl fun _ _ => .add ha hb hp
  | push ha hp => exact .of_silent rfl fun _ _ => .push ha hp
  | pop ha hp => exact .of_silent rfl fun _ _ => .pop ha hp
  | call ha hp => exact .of_silent rfl fun _ _ => .call ha hp
  | ret => exact .of_silent rfl fun _ _ => .ret
  | hlt => exact .of_silent rfl fun _ _ => .hlt

/-- The decoder reads memory at `pc` alone. -/
theorem DecodesTo.withOutFault {m : OpcodeMap} {s : State} {i : Instr} (h : DecodesTo m s i) (o : List Byte)
    (f : FaultRecord) : DecodesTo m (s.withOutFault o f) i := h

/-- The checks read the operands and `pc` alone. -/
theorem FirstFailed.withOutFault {s : State} {i : Instr} {e : Exception} (h : FirstFailed s i e) (o : List Byte)
    (f : FaultRecord) : FirstFailed (s.withOutFault o f) i e := by
  cases h with
  | range hn hp => exact .range (s := s.withOutFault o f) hn hp
  | reg hb hm hp => exact .reg hb hm hp

/-- Whatever `out` and the fault record hold, the step has the same fault. -/
theorem StepFault.withOutFault {m : OpcodeMap} {s : State} {e : Exception} (h : StepFault m s e) (o : List Byte)
    (f : FaultRecord) : StepFault m (s.withOutFault o f) e := by
  cases h with
  | check decodes failed => exact .check (decodes.withOutFault o f) (failed.withOutFault o f)
  | @reject r rejected =>
    have same : rejectException (s.withOutFault o f) r = rejectException s r := by cases r <;> rfl
    exact same ▸ .reject rejected

/-- A step from `s` without a fault is matched, with the bytes it emits, from `s` with another `out` and record. -/
theorem Effect.stepWith_withOutFault {m : OpcodeMap} {s t : State} {i : Instr} (h : Effect s i t)
    (decodes : DecodesTo m s i) (running : s.run = .running) (o : List Byte) (f : FaultRecord) :
    ∃ emitted, t.out = s.out ++ emitted ∧
      stepWith m (s.withOutFault o f) = .next (t.withOutFault (o ++ emitted) f) := by
  obtain ⟨emitted, appended, same⟩ := h.ignoresOutFault
  exact ⟨emitted, appended, ((decodes.withOutFault o f).stepWith_eq running).trans (same o f).exec_eq⟩

/-- Settles O44: the step from the changed state takes the same effect or enters the same fault. -/
theorem outAndFaultRecordAreNeverRead : Obligations.OutAndFaultRecordAreNeverRead := by
  intro m s t o f stepped
  obtain ⟨running, ⟨i, decodes, effect⟩ | ⟨e, fault, rfl⟩⟩ := stepWith_ends stepped
  · obtain ⟨emitted, appended, same⟩ := effect.stepWith_withOutFault decodes running o f
    have unfaulted : t.run ≠ .faulted := by
      obtain kept | ⟨-, halted⟩ := effect.run_cases
      · simp [kept, running]
      · simp [halted]
    exact ⟨emitted, t.withOutFault (o ++ emitted) f, appended, same, rfl, rfl, rfl, rfl, rfl,
      fun faulted => absurd faulted unfaulted, fun _ => ⟨effect.fault_eq, rfl⟩⟩
  · have same := (fault.withOutFault o f).stepWith_eq running
    exact ⟨[], (s.withOutFault o f).raise e, (List.append_nil _).symm, same, (List.append_nil _).symm, rfl, rfl, rfl,
      rfl, fun _ => rfl, fun unfaulted => absurd rfl unfaulted⟩

end Sys2Proof.Machine

/-! ## Memory as the machine uses it (rules R41, R45, R47, R52), and O6, O23, O35, O27, O47 -/

namespace Sys2Proof.Machine

/-- `Memory.read_write` over addresses. -/
theorem State.memRead_memWrite {s : State} (wf : Memory.wf s.mem = true) (a d : Addr) (v : Byte) :
    (s.memWrite a v).memRead d = if d = a then v else s.memRead d := by
  simpa [State.memRead, BitVec.toNat_inj] using Memory.read_write s.mem a.toNat d.toNat v wf

/-- The new stack top of a PUSH or a CALL holds what it stored. -/
theorem State.memRead_decSp_storeTop {s : State} (wf : Memory.wf s.mem = true) (v : Byte) :
    (s.decSp.storeTop v).memRead s.decSp.sp = v :=
  (State.memRead_memWrite (s := s.decSp) wf s.decSp.sp s.decSp.sp v).trans (if_pos rfl)

/-- Settles O6: read after write on canonical memory; the other clauses hold by the shape of `memWrite` and of the
reset state. -/
theorem memoryReadsTheLatestWrite : Obligations.MemoryReadsTheLatestWrite :=
  ⟨fun _ wf a d v => State.memRead_memWrite wf a d v, fun _ _ _ => ⟨rfl, rfl, rfl, rfl, rfl⟩, fun _ _ _ => rfl⟩

/-- States with one memory read alike. -/
theorem KeepsMemory.of_mem_eq {s t : State} (h : t.mem = s.mem) : KeepsMemory s t :=
  fun d => congrArg (Memory.read · d.toNat) h

/-- A state whose memory is that of a write reads alike at every other address. -/
theorem KeepsMemoryExcept.of_mem_eq {s t : State} {a : Addr} {v : Byte} (wf : Memory.wf s.mem = true)
    (h : t.mem = (s.memWrite a v).mem) : KeepsMemoryExcept a s t := fun d other =>
  calc t.memRead d = (s.memWrite a v).memRead d := KeepsMemory.of_mem_eq h d
    _ = s.memRead d := (State.memRead_memWrite wf a d v).trans (if_neg other)

/-- An effect keeps memory, or stores one byte at the instruction's store address. -/
theorem Effect.mem_cases {s t : State} {i : Instr} (h : Effect s i t) :
    storeAddress i s = none ∧ t.mem = s.mem ∨
    ∃ (a : Addr) (v : Byte), storeAddress i s = some a ∧ t.mem = (s.memWrite a v).mem := by
  cases h with
  | push | call => exact .inr ⟨_, _, rfl, rfl⟩
  | ldi | prn | mul | add | pop | ret | hlt => exact .inl ⟨rfl, rfl⟩

/-- Settles O23: an effect stores at the store address or nowhere, and a fault stores nothing. -/
theorem onlyPushAndCallStore : Obligations.OnlyPushAndCallStore := by
  intro i s t wf ran
  obtain ⟨-, effect⟩ | ⟨-, e, -, rfl⟩ := exec_cases ran
  · obtain ⟨-, kept⟩ | ⟨a, v, hsome, stored⟩ := effect.mem_cases
    · exact ⟨fun _ _ _ _ => KeepsMemory.of_mem_eq kept _, fun _ => .of_mem_eq kept⟩
    · rw [hsome]
      exact ⟨fun b hb => Option.some.inj hb ▸ .of_mem_eq wf stored, nofun⟩
  · exact ⟨fun _ _ d _ => State.memRead_raise s e d, fun _ d => State.memRead_raise s e d⟩

/-- Settles O35: the fetch behind the effect reads the cell at the new stack pointer. -/
theorem storesAreSeenByTheNextFetch : Obligations.StoresAreSeenByTheNextFetch := by
  intro s t a r wf ha hp
  refine ⟨fun ran atNext => ?_, fun ran atTarget => ?_⟩
  · rw [(Effect.push ha (by omega)).exec_eq] at ran
    cases ran
    calc (s.decSp.storeTop (s.decSp.getReg r)).memRead (s.nextPc 1)
      _ = (s.decSp.storeTop (s.decSp.getReg r)).memRead s.decSp.sp := by rw [atNext]
      _ = s.decSp.getReg r := State.memRead_decSp_storeTop wf _
  · rw [(Effect.call ha (by omega)).exec_eq] at ran
    cases ran
    calc (s.decSp.storeTop (s.nextPc 1)).memRead (s.decSp.getReg r)
      _ = (s.decSp.storeTop (s.nextPc 1)).memRead s.decSp.sp := by rw [atTarget]
      _ = s.nextPc 1 := State.memRead_decSp_storeTop wf _

/-- The stack pointer wraps below 0 (decision D5). -/
theorem State.sp_decSp_of_zero {s : State} (h : s.sp = 0) : s.decSp.sp = 255 := by
  simp [h]

/-- Settles O27: PUSH and CALL have no check on the stack pointer, so each takes its effect, which stores at the new
one. -/
theorem stackCollisionIsNoFault : Obligations.StackCollisionIsNoFault := by
  intro s a r wf ha hp
  have noCarry : s.pc.toNat + 1 + 1 ≤ 255 := by omega
  refine ⟨⟨_, (Effect.push ha noCarry).exec_eq, ⟨rfl, rfl⟩, State.memRead_decSp_storeTop wf _, State.sp_decSp_of_zero⟩,
    ⟨_, (Effect.call ha noCarry).exec_eq, ⟨rfl, rfl⟩, ?_, State.sp_decSp_of_zero⟩⟩
  exact (congrArg BitVec.toNat (State.memRead_decSp_storeTop wf _)).trans (State.nextPc_toNat noCarry)

/-! ### The accesses of a step (rule R45) -/

/-- Reads leave the state as it is. -/
theorem foldl_apply_of_reads {l : List MemAccess} (reads : ∀ x ∈ l, ∃ a, x = .read a) (s : State) :
    l.foldl MemAccess.apply s = s := by
  induction l with
  | nil => rfl
  | cons x l ih =>
    obtain ⟨⟨a, rfl⟩, rest⟩ := List.forall_mem_cons.mp reads
    exact ih rest

/-- The accesses of an instruction that passes its checks: opcode, operands, stack access. -/
theorem DecodesTo.stepAccessesWith_eq {m : OpcodeMap} {s : State} {i : Instr} (decodes : DecodesTo m s i)
    (running : s.run = .running) (normal : executesNormally i s = true) :
    stepAccessesWith m s =
      .read s.pc :: (List.range i.operandCount).map (fun k => .read (s.nextPc k)) ++ dataAccesses i s := by
  obtain ⟨rest, hd⟩ := decodes
  obtain ⟨inRange, wf⟩ := executesNormally_iff.mp normal
  have passes : ¬ (i.operandCount ≠ 0 ∧ s.pc.toNat + 1 + i.operandCount > 255) := by omega
  simp only [stepAccessesWith, running, hd, if_neg passes, wf, if_true, List.cons_append]

/-- A step that faults reads only: its stack access comes after every check. -/
theorem StepFault.reads_only {m : OpcodeMap} {s : State} {e : Exception} (h : StepFault m s e)
    (running : s.run = .running) : ∀ x ∈ stepAccessesWith m s, ∃ a, x = .read a := by
  cases h with
  | @check i _ decodes failed =>
    obtain ⟨rest, hd⟩ := decodes
    cases failed with
    | range hn hp => simp [stepAccessesWith, running, hd, hn, hp]
    | reg _ hm hp =>
      have passes : ¬ (i.operandCount ≠ 0 ∧ s.pc.toNat + 1 + i.operandCount > 255) := by omega
      simp [stepAccessesWith, running, hd, if_neg passes, wf_of_find hm]
  | reject rejected => simp [stepAccessesWith, running, rejected]

/-- What an effect does to memory is its instruction's stack access. -/
theorem Effect.mem_eq {s t : State} {i : Instr} (h : Effect s i t) :
    t.mem = ((dataAccesses i s).foldl MemAccess.apply s).mem := by
  cases h with
  | push ha _ => simp [dataAccesses, regOf?_eq_some ha, MemAccess.apply]
  | call => simp [dataAccesses, MemAccess.apply]
  | ldi | prn | mul | add | pop | ret | hlt => rfl

/-- A step that faults leaves memory as its accesses do: as it was. -/
theorem StepFault.mem_eq {m : OpcodeMap} {s : State} {e : Exception} (h : StepFault m s e)
    (running : s.run = .running) : (s.raise e).mem = ((stepAccessesWith m s).foldl MemAccess.apply s).mem := by
  rw [foldl_apply_of_reads (h.reads_only running)]
  exact State.raise_mem s e

/-- The accesses of a step, applied in order, give its memory. -/
theorem stepWith_mem_eq {m : OpcodeMap} {s t : State} (h : stepWith m s = .next t) :
    t.mem = ((stepAccessesWith m s).foldl MemAccess.apply s).mem := by
  obtain ⟨running, ⟨i, decodes, ran⟩ | ⟨r, rejected, rfl⟩⟩ := stepWith_cases h
  · obtain ⟨normal, effect⟩ | ⟨-, e, failed, rfl⟩ := exec_cases ran
    · have reads : ∀ x ∈ .read s.pc :: (List.range i.operandCount).map (fun k => MemAccess.read (s.nextPc k)),
          ∃ a, x = .read a := by simp
      rw [decodes.stepAccessesWith_eq running normal, List.foldl_append, foldl_apply_of_reads reads]
      exact effect.mem_eq
    · exact StepFault.mem_eq (.check decodes failed) running
  · exact StepFault.mem_eq (.reject rejected) running

/-- A valid register byte selects the register of its value. -/
theorem regOf?_of_validReg {b : Byte} (h : validReg b = true) : regOf? b = some (Fin.ofNat 8 b.toNat) :=
  regOf?_eq_some (Nat.mod_eq_of_lt (of_decide_eq_true h)).symm

/-- Settles O47: the first clause by how a step ends, the second row by row. -/
theorem accessesAreThoseOfTheTable : Obligations.AccessesAreThoseOfTheTable := by
  refine ⟨fun _ _ _ => stepWith_mem_eq, fun m s i running decodes normal => ?_⟩
  rw [decodes.stepAccessesWith_eq running normal]
  cases i with
  | push a =>
    have valid : validReg a = true := by simpa [Instr.wf, Instr.regOperands] using (executesNormally_iff.mp normal).2
    simp only [dataAccesses, regOf?_of_validReg valid]
    rfl
  | ldi | prn | mul | add | pop | call | ret | hlt => rfl

end Sys2Proof.Machine

/-! ## The decoder and the encoder (rules R60 to R71): the bytes of a decoded instruction, and O28, O29, O30 -/

namespace Sys2Proof.Machine

/-- Operand assembly reads back what the encoder lays out, in the order of decision D2. -/
theorem takeOperands_operands (i : Instr) (rest : List Byte) :
    takeOperands i.mnemonic (i.operands ++ rest) = .ok (i, rest) := by
  cases i with
  | ldi | prn | mul | add | push | pop | call | ret | hlt => rfl

/-- The operand bytes are as many as the table of formats says (rule R60). -/
theorem operands_length (i : Instr) : i.operands.length = i.mnemonic.operandCount := by
  cases i with
  | ldi | prn | mul | add | push | pop | call | ret | hlt => rfl

/-- With `decodeAtWith_ok`: the opcode match and the operands leading the bytes are all that decoding asks for. -/
theorem decodeAtWith_ok_iff {m : OpcodeMap} {op : Byte} {bs rest : List Byte} {i : Instr} :
    decodeAtWith m op bs = .ok (i, rest) ↔ decodeOpcodeWith m op = some i.mnemonic ∧ bs = i.operands ++ rest := by
  refine ⟨decodeAtWith_ok, ?_⟩
  rintro ⟨matched, rfl⟩
  simp only [decodeAtWith, matched, takeOperands_operands]

/-- A byte string decodes as its opcode byte and the bytes behind it do. -/
theorem decodeWith_cons_ok_iff {m : OpcodeMap} {op : Byte} {bs : List Byte} {p : Instr × List Byte} :
    decodeWith m (op :: bs) = .ok p ↔ decodeAtWith m op bs = .ok p := by
  simp only [decodeWith]
  cases decodeAtWith m op bs with
  | ok q => simp
  | error e => simp

/-- What decodes to an instruction: an opcode byte that matches it, its operands, and the rest (rules R70, R71). -/
theorem decodeWith_ok_iff {m : OpcodeMap} {bs rest : List Byte} {i : Instr} :
    decodeWith m bs = .ok (i, rest) ↔
      ∃ op, decodeOpcodeWith m op = some i.mnemonic ∧ bs = op :: (i.operands ++ rest) := by
  cases bs with
  | nil => simp [decodeWith]
  | cons op bs => simp [decodeWith_cons_ok_iff, decodeAtWith_ok_iff]

/-- Settles O28: an allowed map matches its own opcode byte, and the operands stand behind it. -/
theorem decodeInvertsEncode : Obligations.DecodeInvertsEncode :=
  fun _ i _ valid => decodeWith_ok_iff.mpr ⟨_, decodeOpcodeWith_byteOf valid i.mnemonic, rfl⟩

/-- Settles O29: under any map a byte that matches an instruction is the map's byte of it. -/
theorem encodeInvertsDecode : Obligations.EncodeInvertsDecode := by
  intro m i bs rest decoded
  obtain ⟨op, matched, rfl⟩ := decodeWith_ok_iff.mp decoded
  rw [decodeOpcodeWith_some matched]
  rfl

/-- Settles O30: the bytes behind the opcode are the matched instruction's operands and the rest; the default map's
nine bytes are compared one by one. -/
theorem lengthComesFromTheMatchedOpcode : Obligations.LengthComesFromTheMatchedOpcode := by
  refine ⟨fun m i op bs rest decoded => ?_, fun mn => ?_⟩
  · obtain ⟨matched, rfl⟩ := decodeAtWith_ok_iff.mp (decodeWith_cons_ok_iff.mp decoded)
    exact ⟨matched, by rw [List.length_append, operands_length]⟩
  · cases mn with
    | ldi | prn | mul | add | push | pop | call | ret | hlt => rfl

end Sys2Proof.Machine

/-! ## The checks of an instruction and what follows them (rules R84 to R87), and O24, O25, O26 -/

namespace Sys2Proof.Machine

/-- HLT halts, and no other effect moves `run`. -/
theorem Effect.run_eq {s t : State} {i : Instr} (h : Effect s i t) :
    t.run = if i = .hlt then .halted else s.run := by
  cases h with
  | hlt => rfl
  | ldi | prn | mul | add | push | pop | call | ret => rfl

/-- No effect but PRN's touches `out`. -/
theorem Effect.out_eq_of_ne_prn {s t : State} {i : Instr} (h : Effect s i t) (other : ∀ reg, i ≠ .prn reg) :
    t.out = s.out := by
  obtain kept | ⟨a, -, isPrn, -⟩ := h.out_cases
  · exact kept
  · exact absurd isPrn (other a)

/-- An instruction that passes its checks takes its effect. -/
theorem exec_of_normal {i : Instr} {s : State} (normal : executesNormally i s = true) :
    ∃ t, exec i s = .next t ∧ Effect s i t := by
  obtain ⟨t, ran, ⟨-, effect⟩ | ⟨abnormal, -⟩⟩ := exec_ends i s
  · exact ⟨t, ran, effect⟩
  · exact absurd normal (by simp [abnormal])

/-- Settles O24: an instruction that passes its checks takes its effect, and an effect moves `run`, `fault` and `out`
as listed. -/
theorem checkedInstructionsComplete : Obligations.CheckedInstructionsComplete := by
  intro i s normal
  obtain ⟨t, ran, effect⟩ := exec_of_normal normal
  exact ⟨t, ran, effect.fault_eq, effect.run_eq, effect.out_eq_of_ne_prn⟩

/-- An invalid register byte is one above 7 (rule R25). -/
theorem not_validReg_eq (b : Byte) : (!validReg b) = decide (7 < b.toNat) := by
  simp only [validReg, ← decide_not, Nat.not_lt, Nat.succ_le_iff]

/-- The first invalid register operand is above 7. -/
theorem lt_toNat_of_find {i : Instr} {b : Byte} (h : i.regOperands.find? (fun b => !validReg b) = some b) :
    7 < b.toNat := by
  have invalid := List.find?_some h
  simpa only [not_validReg_eq, decide_eq_true_eq] using invalid

/-- Settles O25: each clause is one way to fail a check first. -/
theorem uncheckedInstructionsFaultInOrder : Obligations.UncheckedInstructionsFaultInOrder :=
  fun _ _ => ⟨fun hn hp => (FirstFailed.range hn hp).exec_eq,
    fun hp _ found => (FirstFailed.reg (lt_toNat_of_find found) found hp).exec_eq⟩

/-- The increment of an instruction that passed the range check stays below address 256. -/
theorem State.nextPc_toNat_and_le {s : State} {n : Nat} (h : s.pc.toNat + 1 + n ≤ 255) :
    (s.nextPc n).toNat = s.pc.toNat + 1 + n ∧ (s.nextPc n).toNat ≤ 255 :=
  ⟨State.nextPc_toNat h, (State.nextPc_toNat h).trans_le h⟩

/-- Settles O26: the first clause effect by effect; in the second, a failed check or a rejection would have kept
`pc`. -/
theorem pcChangesOnlyAsListed : Obligations.PcChangesOnlyAsListed := by
  refine ⟨fun i s t ran normal => ?_, fun m s t stepped moved => ?_⟩
  · obtain ⟨u, ran', effect⟩ := exec_of_normal normal
    obtain rfl : u = t := by simpa [ran'] using ran
    cases effect with
    | ldi _ hp | prn _ hp | mul _ _ hp | add _ _ hp | push _ hp | pop _ hp => exact State.nextPc_toNat_and_le hp
    | @call _ r ha _ =>
      intro x hx
      obtain rfl : r = x := Fin.ext (ha.symm.trans hx)
      rfl
    | ret | hlt => rfl
  · obtain ⟨-, ⟨i, decodes, ran⟩ | ⟨r, -, rfl⟩⟩ := stepWith_cases stepped
    · obtain ⟨normal, -⟩ | ⟨-, e, -, rfl⟩ := exec_cases ran
      · exact ⟨i, decodes, ran, normal⟩
      · exact absurd (State.raise_pc s e) moved
    · exact absurd (State.raise_pc s _) moved

end Sys2Proof.Machine

/-! ## The bytes at `pc` (rules R80 to R83): illegal opcodes and encodings that stand in memory, and O32, O36 -/

namespace Sys2Proof.Machine

/-- A byte that is no opcode is rejected whatever follows it. -/
theorem decodeAtWith_of_illegal {m : OpcodeMap} {op : Byte} (illegal : decodeOpcodeWith m op = none)
    (bs : List Byte) : decodeAtWith m op bs = .error (.unknownOpcode op) := by
  simp only [decodeAtWith, illegal]

/-- Settles O36: the rejection of the opcode byte is the step's fault, and it comes before the operands are read. -/
theorem illegalOpcodeFaults : Obligations.IllegalOpcodeFaults := by
  refine ⟨fun m s running illegal => ?_, fun m s running illegal => ?_⟩
  · exact stepWith_of_rejected (decodeAtWith_of_illegal illegal _) running
  · simp only [stepAccessesWith, running, decodeAtWith_of_illegal illegal]

/-- The bytes that stand from an address up: the first there, the others from the next address up. -/
theorem State.holdsAt_cons {s : State} {a : Nat} {b : Byte} {bs : List Byte} :
    s.holdsAt a (b :: bs) = true ↔
      a < 256 ∧ s.memRead (BitVec.ofNat 8 a) = b ∧ s.holdsAt (a + 1) bs = true := by
  simp [State.holdsAt, and_assoc]

/-- The address `k` bytes behind `pc`. -/
theorem State.ofNat_pc_add (s : State) (k : Nat) : BitVec.ofNat 8 (s.pc.toNat + k) = s.pc + BitVec.ofNat 8 k := by
  simp [BitVec.ofNat_add]

/-- Bytes that stand behind `pc`, no more than the window holds, lead the window. -/
theorem State.operandWindow_of_holdsAt {s : State} {bs : List Byte} (short : bs.length ≤ 2)
    (stands : s.holdsAt (s.pc.toNat + 1) bs = true) : ∃ rest, s.operandWindow = bs ++ rest := by
  match bs, short with
  | [], _ => exact ⟨_, rfl⟩
  | [a], _ =>
    obtain ⟨h1, ha, -⟩ := State.holdsAt_cons.mp stands
    rw [State.ofNat_pc_add] at ha
    by_cases h2 : s.pc.toNat + 2 < 256
    · exact ⟨[s.memRead (s.pc + 2)], by simp [State.operandWindow, h2, ← ha]⟩
    · exact ⟨[], by simp [State.operandWindow, h1, h2, ← ha]⟩
  | [a, b], _ =>
    obtain ⟨-, ha, stands'⟩ := State.holdsAt_cons.mp stands
    obtain ⟨h2, hb, -⟩ := State.holdsAt_cons.mp stands'
    rw [State.ofNat_pc_add] at ha
    rw [Nat.add_assoc, State.ofNat_pc_add] at hb
    exact ⟨[], by simp [State.operandWindow, show s.pc.toNat + 2 < 256 from h2, ← ha, ← hb]⟩

/-- Under an allowed map an encoding that stands at `pc` decodes to its instruction. -/
theorem DecodesTo.of_holdsAt {m : OpcodeMap} {s : State} {i : Instr} (valid : m.valid = true)
    (stands : s.holdsAt s.pc.toNat (encodeWith m i) = true) : DecodesTo m s i := by
  obtain ⟨-, opcode, operands⟩ := State.holdsAt_cons.mp stands
  have fetched : s.fetchOpcode = m.byteOf i.mnemonic := by simpa [State.fetchOpcode] using opcode
  have short : i.operands.length ≤ 2 := (operands_length i).trans_le (Mnemonic.operandCount_le _)
  obtain ⟨rest, window⟩ := State.operandWindow_of_holdsAt short operands
  exact ⟨rest, decodeAtWith_ok_iff.mpr ⟨fetched ▸ decodeOpcodeWith_byteOf valid _, window⟩⟩

/-- Settles O32: a RUNNING core runs what its bytes decode to, and an encoding at `pc` decodes. -/
theorem stepRunsTheDecodedInstruction : Obligations.StepRunsTheDecodedInstruction :=
  ⟨fun _ _ _ running decodes => decodes.stepWith_eq running,
    fun _ _ _ valid running stands => (DecodesTo.of_holdsAt valid stands).stepWith_eq running⟩

end Sys2Proof.Machine

/-! ## The run (rule R89), and O42 -/

namespace Sys2Proof.Machine

/-- A run of `j + k` steps is one of `j` steps and then one of `k`. -/
theorem runForWith_add (m : OpcodeMap) (j k : Nat) (s : State) :
    runForWith m (j + k) s = runForWith m k (runForWith m j s) := by
  induction j generalizing s with
  | zero => rw [Nat.zero_add]; rfl
  | succ j ih =>
    by_cases running : s.run = .running
    · obtain ⟨t, stepped⟩ := stepWith_of_running m running
      rw [Nat.succ_add, runForWith_next stepped, runForWith_next stepped, ih]
    · simp only [runForWith_stopped m running]

/-- A run that has stopped does not change any more (rule R31). -/
theorem runForWith_frozen {m : OpcodeMap} {j k : Nat} {s : State} (stopped : (runForWith m j s).run ≠ .running)
    (le : j ≤ k) : runForWith m k s = runForWith m j s := by
  obtain ⟨d, rfl⟩ := Nat.exists_eq_add_of_le le
  rw [runForWith_add, runForWith_stopped m stopped]

/-- All the states in which a run has stopped are one. -/
theorem runForWith_stopped_unique {m : OpcodeMap} {j k : Nat} {s : State}
    (hj : (runForWith m j s).run ≠ .running) (hk : (runForWith m k s).run ≠ .running) :
    runForWith m j s = runForWith m k s := by
  obtain le | le := Nat.le_total j k
  · exact (runForWith_frozen hj le).symm
  · exact runForWith_frozen hk le

/-- A run is endless, or halts, or faults. -/
theorem runForWith_fates (m : OpcodeMap) (s : State) :
    (∀ k, (runForWith m k s).run = .running) ∨ (∃ k, (runForWith m k s).run = .halted) ∨
      ∃ k, (runForWith m k s).run = .faulted := by
  by_cases endless : ∀ k, (runForWith m k s).run = .running
  · exact .inl endless
  · obtain ⟨k, stopped⟩ := not_forall.mp endless
    cases fate : (runForWith m k s).run with
    | running => exact absurd fate stopped
    | halted => exact .inr (.inl ⟨k, fate⟩)
    | faulted => exact .inr (.inr ⟨k, fate⟩)

/-- Settles O42: a RUNNING core has a step, and the state in which a run stops is one, so its fate is one. -/
theorem everyRunHasOneOfThreeFates : Obligations.EveryRunHasOneOfThreeFates := by
  refine ⟨fun m s => stepWith_of_running m, fun m s _ => ⟨runForWith_fates m s, fun j k halted faulted => ?_,
    fun j k => runForWith_frozen⟩⟩
  have same : runForWith m j s = runForWith m k s :=
    runForWith_stopped_unique (by simp [halted]) (by simp [faulted])
  simp [same, faulted] at halted

end Sys2Proof.Machine

/-! ## The step as the pseudocode of rule R88, and O33 -/

namespace Sys2Proof.Machine

/-- The first byte of the window is the one at `pc + 1`. -/
theorem State.memRead_of_operandWindow_cons {s : State} {a : Byte} {l : List Byte} (h : s.operandWindow = a :: l) :
    s.memRead (s.pc + 1) = a := by
  simp only [State.operandWindow] at h
  split at h
  · exact List.head_eq_of_cons_eq h
  · split at h
    · exact List.head_eq_of_cons_eq h
    · cases h

/-- The second byte of the window is the one at `pc + 2`. -/
theorem State.memRead_of_operandWindow_cons_cons {s : State} {a b : Byte} {l : List Byte}
    (h : s.operandWindow = a :: b :: l) : s.memRead (s.pc + 2) = b := by
  simp only [State.operandWindow] at h
  split at h
  · exact List.head_eq_of_cons_eq (List.tail_eq_of_cons_eq h)
  · split at h <;> cases h

/-- A checked register byte selects the register of its value. -/
theorem ofNat_eq_of_toNat {b : Byte} {r : RegIdx} (h : b.toNat = r.val) : Fin.ofNat 8 b.toNat = r := by
  simp [h]

/-- The effect of a decoded instruction is what rule R88 does with the bytes behind `pc`. -/
theorem Effect.eq_effectOfR88 {s t : State} {i : Instr} {rest : List Byte} (h : Effect s i t)
    (window : s.operandWindow = i.operands ++ rest) :
    t = effectOfR88 i.mnemonic (Fin.ofNat 8 (s.memRead (s.pc + 1)).toNat) (Fin.ofNat 8 (s.memRead (s.pc + 2)).toNat)
      (s.memRead (s.pc + 2)) s := by
  cases h with
  | ldi ha _ =>
    rw [State.memRead_of_operandWindow_cons window, State.memRead_of_operandWindow_cons_cons window,
      ofNat_eq_of_toNat ha]
    rfl
  | mul ha hb _ | add ha hb _ =>
    rw [State.memRead_of_operandWindow_cons window, State.memRead_of_operandWindow_cons_cons window,
      ofNat_eq_of_toNat ha, ofNat_eq_of_toNat hb]
    rfl
  | prn ha _ | push ha _ | pop ha _ | call ha _ =>
    rw [State.memRead_of_operandWindow_cons window, ofNat_eq_of_toNat ha]
    rfl
  | ret | hlt => rfl

/-- The first invalid register operand of a decoded instruction, by the two register checks of rule R88. -/
theorem find_regOperands_eq {s : State} {i : Instr} {rest : List Byte}
    (window : s.operandWindow = i.operands ++ rest) :
    i.regOperands.find? (fun b => !validReg b) =
      if i.mnemonic.operandCount ≥ 1 ∧ (s.memRead (s.pc + 1)).toNat > 7 then some (s.memRead (s.pc + 1))
      else if (i.mnemonic = .mul ∨ i.mnemonic = .add) ∧ (s.memRead (s.pc + 2)).toNat > 7 then
        some (s.memRead (s.pc + 2))
      else none := by
  simp only [not_validReg_eq]
  cases i with
  | mul a b | add a b =>
    rw [State.memRead_of_operandWindow_cons window, State.memRead_of_operandWindow_cons_cons window]
    by_cases ha : a.toNat > 7
    · simp [Instr.regOperands, Instr.mnemonic, Mnemonic.operandCount, ha]
    · by_cases hb : b.toNat > 7
      · simp [Instr.regOperands, Instr.mnemonic, Mnemonic.operandCount, ha, hb]
      · simp [Instr.regOperands, Instr.mnemonic, Mnemonic.operandCount, ha, hb]
  | ldi a _ | prn a | push a | pop a | call a =>
    rw [State.memRead_of_operandWindow_cons window]
    by_cases ha : a.toNat > 7
    · simp [Instr.regOperands, Instr.mnemonic, Mnemonic.operandCount, ha]
    · simp [Instr.regOperands, Instr.mnemonic, Mnemonic.operandCount, ha]
  | ret | hlt => rfl

/-- A well-formed instruction has no invalid register operand. -/
theorem find_regOperands_of_wf {i : Instr} (wf : i.wf = true) : i.regOperands.find? (fun b => !validReg b) = none := by
  simpa [Instr.wf] using wf

/-- Rule R88 on a byte that is no opcode. -/
theorem stepOfR88_of_illegal {m : OpcodeMap} {s : State} (illegal : decodeOpcodeWith m (s.memRead s.pc) = none) :
    stepOfR88 m s = s.raise (.unknownOpcode (s.memRead s.pc)) := by
  simp only [stepOfR88, illegal]

/-- Rule R88 on an instruction that reaches past address 255. -/
theorem stepOfR88_of_out_of_range {m : OpcodeMap} {s : State} {mn : Mnemonic}
    (matched : decodeOpcodeWith m (s.memRead s.pc) = some mn) (hn : mn.operandCount ≠ 0)
    (hp : 255 < s.pc.toNat + 1 + mn.operandCount) :
    stepOfR88 m s = s.raise (s.rangeException mn.operandCount) := by
  simp only [stepOfR88, matched]
  exact if_pos ⟨Nat.one_le_iff_ne_zero.mpr hn, hp⟩

/-- Rule R88 on a decoded instruction in range: the fault of the first invalid register operand, or the effect. -/
theorem stepOfR88_of_in_range {m : OpcodeMap} {s : State} {i : Instr} {rest : List Byte}
    (matched : decodeOpcodeWith m (s.memRead s.pc) = some i.mnemonic)
    (window : s.operandWindow = i.operands ++ rest)
    (hp : i.operandCount = 0 ∨ s.pc.toNat + 1 + i.operandCount ≤ 255) :
    stepOfR88 m s = (i.regOperands.find? fun b => !validReg b).elim
      (effectOfR88 i.mnemonic (Fin.ofNat 8 (s.memRead (s.pc + 1)).toNat) (Fin.ofNat 8 (s.memRead (s.pc + 2)).toNat)
        (s.memRead (s.pc + 2)) s)
      fun b => s.raise (.addressOutOfRangeReg b) := by
  have inRange : ¬ (i.mnemonic.operandCount ≥ 1 ∧ s.pc.toNat + 1 + i.mnemonic.operandCount > 255) := by
    simp only [Instr.operandCount] at hp
    omega
  simp only [stepOfR88, matched, if_neg inRange, find_regOperands_eq window]
  split
  · rfl
  · split
    · rfl
    · rfl

/-- However a decoded instruction ends, rule R88 ends so. -/
theorem Ends.eq_stepOfR88 {m : OpcodeMap} {s t : State} {i : Instr} (h : Ends s i t) (decodes : DecodesTo m s i) :
    t = stepOfR88 m s := by
  obtain ⟨rest, hd⟩ := decodes
  obtain ⟨matched, window⟩ := decodeAtWith_ok hd
  obtain ⟨normal, effect⟩ | ⟨-, e, failed, rfl⟩ := h
  · obtain ⟨hp, wf⟩ := executesNormally_iff.mp normal
    rw [stepOfR88_of_in_range matched window hp, find_regOperands_of_wf wf]
    exact effect.eq_effectOfR88 window
  · cases failed with
    | range hn hp => exact (stepOfR88_of_out_of_range matched hn hp).symm
    | reg _ found hp =>
      rw [stepOfR88_of_in_range matched window (.inr hp), found]
      rfl

/-- Where the decoder rejects the bytes, rule R88 enters the same fault. -/
theorem raise_rejectException_eq_stepOfR88 {m : OpcodeMap} {s : State} {r : Reject}
    (rejected : decodeAtWith m s.fetchOpcode s.operandWindow = .error r) :
    s.raise (rejectException s r) = stepOfR88 m s := by
  obtain ⟨illegal, rfl⟩ | ⟨mn, matched, rfl, missing⟩ := decodeAtWith_error rejected
  · exact (stepOfR88_of_illegal illegal).symm
  · obtain ⟨beyond, hn⟩ := State.operandWindow_short missing (Mnemonic.operandCount_le mn)
    exact (stepOfR88_of_out_of_range matched hn (by omega)).symm

/-- Settles O33: the step that exists runs the decoded instruction or rejects the bytes, and rule R88 agrees with
both. -/
theorem stepIsThePseudocodeOfTheSpec : Obligations.StepIsThePseudocodeOfTheSpec := by
  intro m s running
  obtain ⟨t, stepped⟩ := stepWith_of_running m running
  rw [stepped]
  obtain ⟨-, ⟨i, decodes, ran⟩ | ⟨r, rejected, rfl⟩⟩ := stepWith_cases stepped
  · rw [(exec_cases ran).eq_stepOfR88 decodes]
  · rw [raise_rejectException_eq_stepOfR88 rejected]

end Sys2Proof.Machine

/-! ## LDI and PRN (rules R90, R91): the checks that fail, bytes of two instructions in a row, and O13, O14 -/

namespace Sys2Proof.Machine

/-- Fault entry is the fault its record names. -/
theorem FaultsWith.raise (s : State) (e : Exception) :
    FaultsWith (e.record s.pc).cause (e.record s.pc).space s (.next (s.raise e)) :=
  ⟨s.raise e, rfl, rfl, rfl, rfl, rfl⟩

/-- An instruction with operands that reaches past address 255 faults in space MEM (rule R85). -/
theorem faultsWith_mem_of_out_of_range {i : Instr} {s : State} (hn : i.operandCount ≠ 0)
    (hp : 255 < s.pc.toNat + 1 + i.operandCount) : FaultsWith .addressOutOfRange .mem s (exec i s) :=
  (FirstFailed.range hn hp).exec_eq ▸ .raise s (s.rangeException i.operandCount)

/-- An instruction in range faults in space REG on its first invalid register operand (rule R84). -/
theorem faultsWith_reg_of_find {i : Instr} {s : State} {b : Byte} (hp : s.pc.toNat + 1 + i.operandCount ≤ 255)
    (found : i.regOperands.find? (fun b => !validReg b) = some b) :
    FaultsWith .addressOutOfRange .reg s (exec i s) :=
  (FirstFailed.reg (lt_toNat_of_find found) found hp).exec_eq ▸ .raise s (.addressOutOfRangeReg b)

/-- An invalid register operand is the first one found where it is the first listed. -/
theorem find_cons_of_invalid {b : Byte} (hb : 7 < b.toNat) (bs : List Byte) :
    (b :: bs).find? (fun b => !validReg b) = some b :=
  List.find?_cons_of_pos (by simpa [not_validReg_eq] using hb)

/-- Two runs of bytes stand one behind the other. -/
theorem State.holdsAt_append {s : State} {a : Nat} {bs cs : List Byte} :
    s.holdsAt a (bs ++ cs) = true ↔ s.holdsAt a bs = true ∧ s.holdsAt (a + bs.length) cs = true := by
  induction bs generalizing a with
  | nil => simp [State.holdsAt]
  | cons b bs ih =>
    simp only [List.cons_append, State.holdsAt_cons, ih, and_assoc, List.length_cons, Nat.add_assoc, Nat.add_comm 1]

/-- What stands in memory depends on the cells alone. -/
theorem KeepsMemory.holdsAt_eq {s t : State} (h : KeepsMemory s t) (a : Nat) (bs : List Byte) :
    t.holdsAt a bs = s.holdsAt a bs := by
  induction bs generalizing a with
  | nil => rfl
  | cons b bs ih => simp only [State.holdsAt, h _, ih]

/-- Two instructions that stand in a row, the first going on behind itself and storing nothing, run in two steps. -/
theorem Effect.runForWith_two {m : OpcodeMap} {s t u : State} {i j : Instr} (first : Effect s i t)
    (second : Effect t j u) (valid : m.valid = true) (running : s.run = .running) (stillRunning : t.run = .running)
    (kept : KeepsMemory s t) (sequential : t.pc.toNat = s.pc.toNat + 1 + i.operandCount)
    (stands : s.holdsAt s.pc.toNat (encodeWith m i ++ encodeWith m j) = true) : runForWith m 2 s = u := by
  obtain ⟨standsFirst, standsSecond⟩ := State.holdsAt_append.mp stands
  have behind : s.pc.toNat + (encodeWith m i).length = t.pc.toNat := by
    rw [sequential, encodeWith, List.length_cons, operands_length, Instr.operandCount]
    omega
  rw [behind, ← kept.holdsAt_eq] at standsSecond
  have step₁ : stepWith m s = .next t :=
    ((DecodesTo.of_holdsAt valid standsFirst).stepWith_eq running).trans first.exec_eq
  have step₂ : stepWith m t = .next u :=
    ((DecodesTo.of_holdsAt valid standsSecond).stepWith_eq stillRunning).trans second.exec_eq
  rw [runForWith_next step₁, runForWith_next step₂]
  rfl

/-- The text of a stream is that of its bytes so far and then that of the last one (rule R148). -/
theorem renderWith_concat (terminator out : List Byte) (v : Byte) :
    renderWith terminator (out ++ [v]) = renderWith terminator out ++ decimal v ++ terminator := by
  simp [renderWith]

/-- The text of one byte. -/
theorem renderWith_singleton (terminator : List Byte) (v : Byte) :
    renderWith terminator [v] = decimal v ++ terminator := renderWith_concat terminator [] v

/-- LDI and PRN of one register in a row, both in range, append the immediate to `out`. -/
theorem runForWith_ldi_prn {m : OpcodeMap} {s : State} {a v : Byte} {r : RegIdx} (valid : m.valid = true)
    (running : s.run = .running) (ha : a.toNat = r.val) (hp : s.pc.toNat ≤ 250)
    (stands : s.holdsAt s.pc.toNat (encodeWith m (.ldi a v) ++ encodeWith m (.prn a)) = true) :
    (runForWith m 2 s).run = .running ∧ (runForWith m 2 s).out = s.out ++ [v] := by
  have inRange : s.pc.toNat + 1 + 2 ≤ 255 := by omega
  have sequential : ((s.setReg r v).advance 2).pc.toNat = s.pc.toNat + 1 + 2 := State.nextPc_toNat inRange
  have ran := (Effect.ldi ha inRange).runForWith_two (.prn ha (by omega)) valid running running (fun _ => rfl)
    sequential stands
  simp [ran, running]

/-- Settles O13: LDI takes its effect or fails one of its two checks, and the PRN behind it emits what it loaded. -/
theorem ldiLoadsTheImmediate : Obligations.LdiLoadsTheImmediate := by
  refine ⟨fun _ _ _ => rfl, fun s a b r ha hp => ?_, fun s a b hp => ?_, fun s a b hp ha => ?_,
    fun m s a v terminator valid running ha hp stands => ?_⟩
  · have inRange : s.pc.toNat + 1 + 2 ≤ 255 := by omega
    have effect : Effect s (.ldi a b) _ := .ldi ha inRange
    have keepsRegs := effect.keepsRegsExcept
    rw [writtenRegs, regOf?_eq_some ha] at keepsRegs
    exact ⟨_, effect.exec_eq, by simp, keepsRegs, State.nextPc_toNat inRange, fun _ => rfl, rfl, rfl, rfl⟩
  · have beyond : 255 < s.pc.toNat + 1 + 2 := by omega
    exact faultsWith_mem_of_out_of_range (Nat.succ_ne_zero 1) beyond
  · have inRange : s.pc.toNat + 1 + 2 ≤ 255 := by omega
    exact faultsWith_reg_of_find inRange (find_cons_of_invalid ha [])
  · have index : a.toNat = (⟨a.toNat, Nat.lt_succ_of_le ha⟩ : RegIdx).val := rfl
    obtain ⟨goesOn, appended⟩ := runForWith_ldi_prn valid running index hp stands
    exact ⟨goesOn, appended, appended ▸ renderWith_concat terminator s.out v⟩

/-- Settles O14: PRN takes its effect or fails one of its two checks, and a second PRN appends behind the first. -/
theorem prnEmitsTheRegister : Obligations.PrnEmitsTheRegister := by
  refine ⟨fun _ _ => rfl, fun s a r ha hp => ?_, fun s a hp => ?_, fun s a hp ha => ?_,
    fun s t a b q r ha hb hp ran => ?_, fun terminator => ?_⟩
  · have inRange : s.pc.toNat + 1 + 1 ≤ 255 := by omega
    have effect : Effect s (.prn a) _ := .prn ha inRange
    exact ⟨_, effect.exec_eq, rfl, State.nextPc_toNat inRange, effect.keepsRegsExcept, fun _ => rfl, rfl, rfl⟩
  · have beyond : 255 < s.pc.toNat + 1 + 1 := by omega
    exact faultsWith_mem_of_out_of_range (Nat.succ_ne_zero 0) beyond
  · have inRange : s.pc.toNat + 1 + 1 ≤ 255 := by omega
    exact faultsWith_reg_of_find inRange (find_cons_of_invalid ha [])
  · have inRange : s.pc.toNat + 1 + 1 ≤ 255 := by omega
    rw [(Effect.prn ha inRange).exec_eq] at ran
    cases ran
    have inRange' : (s.nextPc 1).toNat + 1 + 1 ≤ 255 := by
      rw [State.nextPc_toNat inRange]
      omega
    exact ⟨_, (Effect.prn hb inRange').exec_eq, by simp⟩
  · exact ⟨renderWith_singleton terminator 72, renderWith_singleton terminator 0, renderWith_singleton terminator 255⟩

end Sys2Proof.Machine

/-! ## The ALU block (rules R100 to R108): its answer to a select, what the core does with it, and O8, O9, O12, O11 -/

namespace Sys2Proof.Machine

/-- The answer to a select that stands for ADD (rule R102). -/
theorem alu_of_add {sel : BitVec 4} (h : aluOpOf sel = .add) (p q : Byte) :
    alu sel p q = .ok (BitVec.ofNat 8 (p.toNat + q.toNat)) := by
  simp only [alu, h]

/-- The answer to a select that stands for MUL (rule R103). -/
theorem alu_of_mul {sel : BitVec 4} (h : aluOpOf sel = .mul) (p q : Byte) :
    alu sel p q = .ok (BitVec.ofNat 8 (p.toNat * q.toNat)) := by
  simp only [alu, h]

/-- The answer to a select outside the four operations (rule R108). -/
theorem alu_of_other {sel k : BitVec 4} (h : aluOpOf sel = .other k) (p q : Byte) :
    alu sel p q = .error (.unsupportedOperation k) := by
  simp only [alu, h]

/-- A select outside the four operations stands for itself. -/
theorem eq_of_aluOpOf_eq_other {sel k : BitVec 4} (h : aluOpOf sel = .other k) : k = sel := by
  simp only [aluOpOf] at h
  split_ifs at h
  exact (AluOp.other.inj h).symm

/-- On a result the core goes on with the destination written (rule R100). -/
theorem aluApply_of_ok {sel : BitVec 4} {dst src : RegIdx} {s : State} {r : Byte}
    (answered : alu sel (s.getReg dst) (s.getReg src) = .ok r) (k : State → Result) :
    aluApply sel dst src s k = k (s.setReg dst r) := by
  simp only [aluApply, answered]

/-- On an error the core enters the fault (rules R105, R108). -/
theorem aluApply_of_error {sel : BitVec 4} {dst src : RegIdx} {s : State} {e : Exception}
    (failed : alu sel (s.getReg dst) (s.getReg src) = .error e) (k : State → Result) :
    aluApply sel dst src s k = .next (s.raise e) := by
  simp only [aluApply, failed]

/-- The low byte of a product does not depend on whether the factors are read as unsigned or as two's complement. -/
theorem ofNat_mul_toNat_eq_ofInt_mul_toInt (p q : Byte) :
    BitVec.ofNat 8 (p.toNat * q.toNat) = BitVec.ofInt 8 (p.toInt * q.toInt) :=
  calc BitVec.ofNat 8 (p.toNat * q.toNat)
    _ = p * q := by simp [BitVec.ofNat_mul]
    _ = BitVec.ofInt 8 (p.toInt * q.toInt) := by simp [BitVec.ofInt_mul]

/-- Settles O8: the answer to ADD, and its select. -/
theorem aluAddIsTheSumModulo256 : Obligations.AluAddIsTheSumModulo256 :=
  ⟨fun _ isAdd p q => ⟨_, alu_of_add isAdd p q, BitVec.toNat_ofNat _ _⟩, rfl, rfl⟩

/-- Settles O9: the answer to MUL, whose two readings have one low byte, and its select. -/
theorem aluMulIsTheProductModulo256 : Obligations.AluMulIsTheProductModulo256 :=
  ⟨fun _ isMul p q => ⟨_, alu_of_mul isMul p q, BitVec.toNat_ofNat _ _, ofNat_mul_toNat_eq_ofInt_mul_toInt p q⟩,
    rfl, rfl⟩

/-- A register write changes no other register. -/
theorem keepsRegsExcept_setReg (s : State) (r : RegIdx) (v : Byte) : KeepsRegsExcept [r] s (s.setReg r v) := by
  intro x unlisted
  rw [State.getReg_setReg, if_neg (List.ne_of_not_mem_cons unlisted)]

/-- Settles O12: the core writes the destination on a result, and enters a fault on an error. -/
theorem aluWritesOnlyItsDestination : Obligations.AluWritesOnlyItsDestination := by
  refine ⟨fun sel dst src s r answered => ?_, fun sel dst src s e k failed => ?_⟩
  · exact ⟨_, aluApply_of_ok answered .next, by simp, keepsRegsExcept_setReg s dst r, fun _ => rfl, rfl, rfl, rfl, rfl⟩
  · exact ⟨_, aluApply_of_error failed k, fun x _ => State.getReg_raise s e x, fun d => State.memRead_raise s e d, rfl⟩

/-- A failed check is an address or a register index out of range (rules R162, R163). -/
theorem FirstFailed.cause_eq {s : State} {i : Instr} {e : Exception} (h : FirstFailed s i e) (pc : Addr) :
    (e.record pc).cause = .addressOutOfRange := by
  cases h with
  | range | reg => rfl

/-- The fault of a step is an unknown opcode or an access out of range: neither of the ALU's two (rule R160). -/
theorem StepFault.cause_cases {m : OpcodeMap} {s : State} {e : Exception} (h : StepFault m s e) (pc : Addr) :
    (e.record pc).cause = .unknownOpcode ∨ (e.record pc).cause = .addressOutOfRange := by
  cases h with
  | check _ failed => exact .inr (failed.cause_eq pc)
  | @reject r _ =>
    cases r with
    | unknownOpcode b => exact .inl rfl
    | operandsMissing n => exact .inr rfl

/-- Settles O11: the select's error is raised in the core, and a step keeps the record or leaves another cause. -/
theorem unsupportedSelectFaultsAndIsUnreachable : Obligations.UnsupportedSelectFaultsAndIsUnreachable := by
  refine ⟨fun sel k dst src s cont isOther => ?_, fun m s t stepped before => ?_⟩
  · obtain rfl := eq_of_aluOpOf_eq_other isOther
    exact aluApply_of_error (alu_of_other isOther _ _) cont
  · obtain ⟨-, ⟨i, -, effect⟩ | ⟨e, fault, rfl⟩⟩ := stepWith_ends stepped
    · rwa [effect.fault_eq]
    · rw [State.raise_fault]
      obtain unknown | outOfRange := fault.cause_cases s.pc
      · simp [unknown]
      · simp [outOfRange]

end Sys2Proof.Machine

/-! ## MUL and ADD (rules R106, R107): what the two-register instructions share, and O15, O16 -/

namespace Sys2Proof.Machine

/-- With its checks passed, a two-register instruction writes the ALU's result to the first register and goes on
behind itself, nothing else changed (rules R84, R85, R87, R100). -/
theorem execRR_of_alu_ok {sel : BitVec 4} {s : State} {a b v : Byte} {p q : RegIdx} (ha : a.toNat = p.val)
    (hb : b.toNat = q.val) (hp : s.pc.toNat ≤ 252) (answered : alu sel (s.getReg p) (s.getReg q) = .ok v) :
    ∃ t, execRR sel a b s = .next t ∧ t.getReg p = v ∧ KeepsRegsExcept [p] s t ∧ t.pc.toNat = s.pc.toNat + 3 ∧
      KeepsMemory s t ∧ t.out = s.out ∧ KeepsRunAndFault s t := by
  have inRange : s.pc.toNat + 1 + 2 ≤ 255 := by omega
  have ran : execRR sel a b s = .next ((s.setReg p v).advance 2) := by
    rw [execRR, checkRange_ok _ inRange, checkReg_ok _ _ ha, checkReg_ok _ _ hb, aluApply_of_ok answered]
  exact ⟨_, ran, by simp, keepsRegsExcept_setReg s p v, State.nextPc_toNat inRange, fun _ => rfl, rfl, rfl, rfl⟩

/-- The faults of the instructions `i a b` with two register operands, in their order: the range check, the first
operand, the second (rules R84, R85). -/
theorem faultsWith_of_two_regs {i : Byte → Byte → Instr} (count : ∀ a b, (i a b).operandCount = 2)
    (regs : ∀ a b, (i a b).regOperands = [a, b]) :
    (∀ (s : State) (a b : Byte), 252 < s.pc.toNat → FaultsWith .addressOutOfRange .mem s (exec (i a b) s)) ∧
    (∀ (s : State) (a b : Byte), s.pc.toNat ≤ 252 → 7 < a.toNat →
      FaultsWith .addressOutOfRange .reg s (exec (i a b) s)) ∧
    (∀ (s : State) (a b : Byte), s.pc.toNat ≤ 252 → a.toNat ≤ 7 → 7 < b.toNat →
      FaultsWith .addressOutOfRange .reg s (exec (i a b) s)) := by
  refine ⟨fun s a b hp => ?_, fun s a b hp ha => ?_, fun s a b hp ha hb => ?_⟩
  · exact faultsWith_mem_of_out_of_range (by simp [count]) (by rw [count]; omega)
  · exact faultsWith_reg_of_find (by rw [count]; omega) (regs a b ▸ find_cons_of_invalid ha [b])
  · have second : [a, b].find? (fun b => !validReg b) = some b := by
      rw [List.find?_cons_of_neg (by simpa [not_validReg_eq] using ha), find_cons_of_invalid hb]
    exact faultsWith_reg_of_find (by rw [count]; omega) (regs a b ▸ second)

/-- Settles O15: MUL writes the product the ALU answers, or fails one of its three checks. -/
theorem mulMultipliesIntoRegA : Obligations.MulMultipliesIntoRegA := by
  refine ⟨fun _ _ _ => rfl, fun s a b p q ha hb hp => ?_, faultsWith_of_two_regs (fun _ _ => rfl) fun _ _ => rfl⟩
  obtain ⟨product, isMul, -⟩ := aluMulIsTheProductModulo256
  obtain ⟨v, answered, value, -⟩ := product selMul isMul (s.getReg p) (s.getReg q)
  obtain ⟨t, ran, written, frame⟩ := execRR_of_alu_ok ha hb hp answered
  exact ⟨t, ran, written ▸ value, frame⟩

/-- Settles O16: ADD writes the sum the ALU answers, or fails one of its three checks. -/
theorem addAddsIntoRegA : Obligations.AddAddsIntoRegA := by
  refine ⟨fun _ _ _ => rfl, fun s a b p q ha hb hp => ?_, faultsWith_of_two_regs (fun _ _ => rfl) fun _ _ => rfl⟩
  obtain ⟨sum, isAdd, -⟩ := aluAddIsTheSumModulo256
  obtain ⟨v, answered, value⟩ := sum selAdd isAdd (s.getReg p) (s.getReg q)
  obtain ⟨t, ran, written, frame⟩ := execRR_of_alu_ok ha hb hp answered
  exact ⟨t, ran, written ▸ value, frame⟩

end Sys2Proof.Machine

/-! ## PUSH and POP (rules R110 to R112): the faults of one register operand, the stack top, and O17, O18, O49 -/

namespace Sys2Proof.Machine

/-- The faults of the instructions `i a` with one register operand, in their order: the range check, the operand
(rules R84, R85). -/
theorem faultsWith_of_one_reg {i : Byte → Instr} (count : ∀ a, (i a).operandCount = 1)
    (regs : ∀ a, (i a).regOperands = [a]) :
    (∀ (s : State) (a : Byte), 253 < s.pc.toNat → FaultsWith .addressOutOfRange .mem s (exec (i a) s)) ∧
    (∀ (s : State) (a : Byte), s.pc.toNat ≤ 253 → 7 < a.toNat →
      FaultsWith .addressOutOfRange .reg s (exec (i a) s)) := by
  refine ⟨fun s a hp => ?_, fun s a hp ha => ?_⟩
  · exact faultsWith_mem_of_out_of_range (by simp [count]) (by rw [count]; omega)
  · exact faultsWith_reg_of_find (by rw [count]; omega) (regs a ▸ find_cons_of_invalid ha [])

/-- The decrement of the stack pointer wraps below 0 (rule R24; decision D5). -/
theorem State.sp_decSp_toNat (s : State) : s.decSp.sp.toNat = (s.sp.toNat + 255) % 256 := by
  rw [State.sp_decSp, BitVec.toNat_sub, Nat.add_comm]
  rfl

/-- The increment of the stack pointer wraps above 255 (rule R24; decision D5). -/
theorem State.sp_incSp_toNat (s : State) : s.incSp.sp.toNat = (s.sp.toNat + 1) % 256 := by
  rw [State.sp_incSp, BitVec.toNat_add]
  rfl

/-- A register write moves the stack pointer if it is to register 7 (rule R22). -/
@[simp] theorem State.sp_setReg (s : State) (r : RegIdx) (v : Byte) :
    (s.setReg r v).sp = if r = spIdx then v else s.sp :=
  (State.getReg_setReg s r spIdx v).trans (if_congr eq_comm rfl rfl)

/-- Settles O17: PUSH takes its effect, the decrement before the store, or fails one of its two checks. -/
theorem pushStoresBelowTheStackPointer : Obligations.PushStoresBelowTheStackPointer := by
  refine ⟨fun _ _ => rfl, fun s a r wf ha hp => ?_, faultsWith_of_one_reg (fun _ => rfl) fun _ => rfl⟩
  have inRange : s.pc.toNat + 1 + 1 ≤ 255 := by omega
  have effect : Effect s (.push a) _ := .push ha inRange
  have stored := (State.memRead_decSp_storeTop wf (s.decSp.getReg r)).trans (State.getReg_decSp s r)
  exact ⟨_, effect.exec_eq, State.sp_decSp_toNat s, stored, rfl, .of_mem_eq wf rfl, effect.keepsRegsExcept,
    State.nextPc_toNat inRange, rfl, rfl, rfl⟩

/-- Settles O18: POP takes its effect, the load before the increment, or fails one of its two checks. -/
theorem popLoadsFromTheStackPointer : Obligations.PopLoadsFromTheStackPointer := by
  refine ⟨fun _ _ => rfl, fun s a r ha hp => ?_, faultsWith_of_one_reg (fun _ => rfl) fun _ => rfl⟩
  have inRange : s.pc.toNat + 1 + 1 ≤ 255 := by omega
  have effect : Effect s (.pop a) _ := .pop ha inRange
  have loaded (other : r ≠ spIdx) : (s.setReg r s.loadTop).incSp.getReg r = s.loadTop := by simp [other]
  have raised : (s.setReg r s.loadTop).incSp.sp.toNat =
      ((if r = spIdx then s.loadTop.toNat else s.sp.toNat) + 1) % 256 := by
    rw [State.sp_incSp_toNat, State.sp_setReg, apply_ite BitVec.toNat]
  have keepsRegs : KeepsRegsExcept [r, spIdx] s _ := fun x unlisted => effect.keepsRegsExcept x <| by
    simpa [writtenRegs, regOf?_eq_some ha, and_comm] using unlisted
  exact ⟨_, effect.exec_eq, loaded, raised, keepsRegs, fun _ => rfl, State.nextPc_toNat inRange, rfl, rfl, rfl⟩

/-- A register written with what it holds leaves the state as it is. -/
theorem State.setReg_of_getReg_eq {s : State} {r : RegIdx} {v : Byte} (h : s.getReg r = v) : s.setReg r v = s := by
  subst h
  simp [State.setReg, State.getReg]

/-- POP of a register that holds the byte on the stack top only raises the stack pointer (rule R111). -/
theorem Effect.pop_of_getReg_eq_loadTop {s : State} {a : Byte} {r : RegIdx} (ha : a.toNat = r.val)
    (hp : s.pc.toNat + 1 + 1 ≤ 255) (held : s.getReg r = s.loadTop) : Effect s (.pop a) (s.incSp.advance 1) := by
  have effect := Effect.pop ha hp
  rwa [State.setReg_of_getReg_eq held] at effect

/-- The increment undoes the decrement in every register, across the wrap too. -/
theorem State.incSp_regs_of_decSp {s t : State} (h : t.regs = s.decSp.regs) : t.incSp.regs = s.regs := by
  have lowered : t.sp = s.decSp.sp := congrArg (·[spIdx]) h
  rw [State.incSp_regs, lowered, State.sp_decSp, BitVec.sub_add_cancel, h, State.decSp_regs, Vector.set_set]
  exact Vector.set_getElem_self _

/-- The state behind a PUSH of register `r` whose checks have passed (rule R110). -/
def State.pushed (s : State) (r : RegIdx) : State := (s.decSp.storeTop (s.decSp.getReg r)).advance 1

@[simp] theorem State.getReg_pushed (s : State) (r x : RegIdx) : (s.pushed r).getReg x = s.decSp.getReg x := rfl

@[simp] theorem State.sp_pushed (s : State) (r : RegIdx) : (s.pushed r).sp = s.sp - 1 := State.sp_decSp s

/-- The stack top behind a PUSH is the pushed byte. -/
theorem State.loadTop_pushed {s : State} (wf : Memory.wf s.mem = true) (r : RegIdx) :
    (s.pushed r).loadTop = s.decSp.getReg r :=
  State.memRead_decSp_storeTop wf _

/-- Settles O49: the pushed register holds the byte on the stack top, so its POP only raises the stack pointer again;
another POP loads that byte elsewhere. -/
theorem pushThenPopRestores : Obligations.PushThenPopRestores := by
  intro s a b p q wf ha hb hp
  have inRange : s.pc.toNat + 1 + 1 ≤ 255 := by omega
  have push : Effect s (.push a) (s.pushed p) := .push ha inRange
  have top : (s.pushed p).loadTop = s.decSp.getReg p := State.loadTop_pushed wf p
  have pc : (s.pushed p).pc.toNat = s.pc.toNat + 1 + 1 := State.nextPc_toNat inRange
  have inRange' : (s.pushed p).pc.toNat + 1 + 1 ≤ 255 := by omega
  have popSame := Effect.pop_of_getReg_eq_loadTop ha inRange' top.symm
  have popOther := Effect.pop hb inRange'
  have restored : (s.pushed p).incSp.regs = s.regs := State.incSp_regs_of_decSp rfl
  have kept : (s.pushed p).memRead (s.sp - 1) = s.decSp.getReg p := State.sp_pushed s p ▸ top
  have pc' : ((s.pushed p).nextPc 1).toNat = s.pc.toNat + 4 := by rw [State.nextPc_toNat inRange', pc]
  refine ⟨_, _, _, push.exec_eq, popSame.exec_eq, popOther.exec_eq, restored, congrArg (·[spIdx]) restored, kept,
    .of_mem_eq wf rfl, pc', fun notSp notSp' => ⟨?_, ?_⟩⟩
  · simp [notSp, notSp', top]
  · simp [notSp']

end Sys2Proof.Machine

/-! ## CALL, RET and HLT (rules R120 to R123): their effects, CALLs and RETs that pair off, and O19, O20, O50, O51, O21 -/

namespace Sys2Proof.Machine

/-- The state behind a CALL of register `r` whose checks have passed (rule R120). -/
def State.called (s : State) (r : RegIdx) : State := (s.decSp.storeTop (s.nextPc 1)).setPc (s.decSp.getReg r)

/-- The state behind a RET (rule R121). -/
def State.returned (s : State) : State := (s.setPc s.loadTop).incSp

@[simp] theorem State.sp_called (s : State) (r : RegIdx) : (s.called r).sp = s.sp - 1 := State.sp_decSp s

@[simp] theorem State.sp_returned (s : State) : s.returned.sp = s.sp + 1 := State.sp_incSp _

@[simp] theorem State.pc_returned (s : State) : s.returned.pc = s.memRead s.sp := rfl

/-- The increment of a RET undoes the decrement of the CALL whose stack pointer it finds. -/
theorem State.sp_returned_of_called {s u : State} {r : RegIdx} (sameSp : u.sp = (s.called r).sp) :
    u.returned.sp = s.sp := by
  rw [State.sp_returned, sameSp, State.sp_called, BitVec.sub_add_cancel]

/-- CALL keeps memory in canonical form. -/
theorem State.wf_called {s : State} (wf : Memory.wf s.mem = true) (r : RegIdx) :
    Memory.wf (s.called r).mem = true :=
  State.wf_storeTop s.decSp (s.nextPc 1) wf

/-- CALL stores at the decremented stack pointer only. -/
theorem State.keepsMemoryExcept_called {s : State} (wf : Memory.wf s.mem = true) (r : RegIdx) :
    KeepsMemoryExcept s.decSp.sp s (s.called r) :=
  .of_mem_eq wf rfl

/-- The stack top behind a CALL that passed the range check is the address behind it (rules R87, R120). -/
theorem State.memRead_called_toNat {s : State} (wf : Memory.wf s.mem = true) (hp : s.pc.toNat + 1 + 1 ≤ 255)
    (r : RegIdx) : ((s.called r).memRead s.decSp.sp).toNat = s.pc.toNat + 2 :=
  (congrArg BitVec.toNat (State.memRead_decSp_storeTop wf (s.nextPc 1))).trans (State.nextPc_toNat hp)

/-- The target of a CALL is read behind the decrement. -/
theorem State.pc_called (s : State) (r : RegIdx) :
    (s.called r).pc = if r = spIdx then s.sp - 1 else s.getReg r :=
  State.getReg_decSp s r

/-- Settles O19: CALL takes its effect, the decrement first, or fails one of its two checks. -/
theorem callStoresTheReturnAddressAndJumps : Obligations.CallStoresTheReturnAddressAndJumps := by
  refine ⟨fun _ _ => rfl, fun s a r wf ha hp => ?_, faultsWith_of_one_reg (fun _ => rfl) fun _ => rfl⟩
  have inRange : s.pc.toNat + 1 + 1 ≤ 255 := by omega
  have effect : Effect s (.call a) (s.called r) := .call ha inRange
  exact ⟨_, effect.exec_eq, State.sp_decSp_toNat s, State.memRead_called_toNat wf inRange r, rfl,
    State.pc_called s r, State.keepsMemoryExcept_called wf r, effect.keepsRegsExcept, rfl, rfl, rfl⟩

/-- Settles O20: RET has no check and takes its effect; behind a PUSH the stack top is the pushed register. -/
theorem retJumpsToTheStackTop : Obligations.RetJumpsToTheStackTop := by
  refine ⟨fun _ => rfl, fun s => ?_, fun s a r wf ha other hp => ?_⟩
  · exact ⟨s.returned, Effect.ret.exec_eq, rfl, State.sp_incSp_toNat s, Effect.ret.keepsRegsExcept, fun _ => rfl, rfl,
      rfl, rfl⟩
  · have push : Effect s (.push a) (s.pushed r) := .push ha (by omega)
    have jumps : (s.pushed r).loadTop = s.getReg r :=
      (State.loadTop_pushed wf r).trans ((State.getReg_decSp s r).trans (if_neg other))
    have restored : (s.pushed r).returned.sp = s.sp := by simp
    exact ⟨_, _, push.exec_eq, Effect.ret.exec_eq, jumps, restored⟩

/-- A CALL that passes its checks is in range, and answers the state behind it. -/
theorem exec_call_of_normal {s : State} {a : Byte} (normal : executesNormally (.call a) s = true) :
    ∃ r, exec (.call a) s = .next (s.called r) ∧ s.pc.toNat + 1 + 1 ≤ 255 := by
  obtain ⟨t, ran, effect⟩ := exec_of_normal normal
  cases effect with
  | @call _ r _ inRange => exact ⟨r, ran, inRange⟩

/-- Settles O50: the cell at the stack pointer holds the address behind the CALL, and the increment undoes the
decrement. -/
theorem retReturnsBehindItsCall : Obligations.RetReturnsBehindItsCall := by
  intro s a wf normal
  obtain ⟨r, ran, inRange⟩ := exec_call_of_normal normal
  refine ⟨_, ran, fun u sameSp sameTop =>
    ⟨u.returned, Effect.ret.exec_eq, ?_, State.sp_returned_of_called sameSp⟩⟩
  rw [State.pc_returned, sameSp, sameTop]
  exact State.memRead_called_toNat wf inRange r

/-! ### Balanced runs -/

/-- A step that answers a next state answers what the instruction its bytes decode to answers. -/
theorem DecodesTo.eq_of_exec {m : OpcodeMap} {s t u : State} {i : Instr} (decodes : DecodesTo m s i)
    (stepped : stepWith m s = .next t) (ran : exec i s = .next u) : t = u := by
  obtain ⟨running, -⟩ := stepWith_cases stepped
  rw [decodes.stepWith_eq running, ran] at stepped
  cases stepped
  rfl

/-- A step on a CALL that passes its checks leads behind the CALL. -/
theorem DecodesTo.eq_called {m : OpcodeMap} {s t : State} {a : Byte} (decodes : DecodesTo m s (.call a))
    (normal : executesNormally (.call a) s = true) (stepped : stepWith m s = .next t) : ∃ r, t = s.called r := by
  obtain ⟨r, ran, -⟩ := exec_call_of_normal normal
  exact ⟨r, decodes.eq_of_exec stepped ran⟩

/-- A step on a RET leads behind the RET. -/
theorem DecodesTo.eq_returned {m : OpcodeMap} {s t : State} (decodes : DecodesTo m s .ret)
    (stepped : stepWith m s = .next t) : t = s.returned :=
  decodes.eq_of_exec stepped Effect.ret.exec_eq

/-- A balanced run leaves the stack pointer where it was. -/
theorem Balanced.sp_eq {m : OpcodeMap} {d : Nat} {s t : State} (h : Balanced m d s t) : t.sp = s.sp := by
  induction h with
  | done => rfl
  | quiet _ hsp _ _ ih => exact ih.trans hsp
  | pair hc hn hcall _ hr hret _ ihBody ihRest =>
    obtain ⟨r, rfl⟩ := hc.eq_called hn hcall
    obtain rfl := hr.eq_returned hret
    exact ihRest.trans (State.sp_returned_of_called ihBody)

/-- A balanced run keeps memory in canonical form. -/
theorem Balanced.wf {m : OpcodeMap} {d : Nat} {s t : State} (h : Balanced m d s t) (wf : Memory.wf s.mem = true) :
    Memory.wf t.mem = true := by
  induction h with
  | done => exact wf
  | quiet _ _ hmem _ ih => exact ih (hmem ▸ wf)
  | pair hc hn hcall _ hr hret _ ihBody ihRest =>
    obtain ⟨r, rfl⟩ := hc.eq_called hn hcall
    obtain rfl := hr.eq_returned hret
    exact ihRest (ihBody (State.wf_called wf r))

/-- The cell at `a` is none of the `d` cells below the stack pointer `sp`, which wrap below address 0: the distance
down to it from the first of them is at least `d`. -/
def ClearBelow (sp a : Addr) (d : Nat) : Prop := d ≤ (sp - 1 - a).toNat

/-- The cell at the stack pointer is clear of the 255 cells below it. -/
theorem ClearBelow.self {d : Nat} (h : d ≤ 255) (sp : Addr) : ClearBelow sp sp d := by
  have around : sp - 1 - sp = 255 := by bv_omega
  simpa [ClearBelow, around] using h

/-- A cell clear of `d + 1` cells is not the first of them. -/
theorem ClearBelow.ne {sp a : Addr} {d : Nat} (h : ClearBelow sp a (d + 1)) : a ≠ sp - 1 := by
  rintro rfl
  simp [ClearBelow] at h

/-- A cell clear of `d + 1` cells is clear of the `d` behind the first. -/
theorem ClearBelow.pred {sp a : Addr} {d : Nat} (h : ClearBelow sp a (d + 1)) : ClearBelow (sp - 1) a d := by
  unfold ClearBelow at *
  bv_omega

/-- A balanced run nested at most `d` deep stores in the `d` cells below the stack pointer only. -/
theorem Balanced.memRead_eq {m : OpcodeMap} {d : Nat} {s t : State} {a : Addr} (h : Balanced m d s t)
    (wf : Memory.wf s.mem = true) (clear : ClearBelow s.sp a d) : t.memRead a = s.memRead a := by
  induction h with
  | done => rfl
  | quiet _ hsp hmem _ ih => exact (ih (hmem ▸ wf) (hsp ▸ clear)).trans (KeepsMemory.of_mem_eq hmem a)
  | @pair d s u v w t _ hc hn hcall body hr hret _ ihBody ihRest =>
    obtain ⟨r, rfl⟩ := hc.eq_called hn hcall
    obtain rfl := hr.eq_returned hret
    have wfCalled := State.wf_called wf r
    have sameSp : v.returned.sp = s.sp := State.sp_returned_of_called body.sp_eq
    calc t.memRead a
      _ = v.returned.memRead a := ihRest (body.wf wfCalled) (sameSp ▸ clear)
      _ = (s.called r).memRead a := ihBody wfCalled (State.sp_called s r ▸ clear.pred)
      _ = s.memRead a := State.keepsMemoryExcept_called wf r a (State.sp_decSp s ▸ clear.ne)

/-- Settles O51: the balanced run between a CALL and its RET keeps the stack pointer, and 255 cells below it do not
reach round to the return address. -/
theorem nestedCallsReturnInOrder : Obligations.NestedCallsReturnInOrder := by
  refine ⟨fun _ _ _ _ run => run.sp_eq, fun m d s u v w a deep wf calls normal stepped run returns stepped' => ?_⟩
  obtain ⟨t, ran, comesBack⟩ := retReturnsBehindItsCall s a wf normal
  obtain rfl : u = t := calls.eq_of_exec stepped ran
  obtain ⟨r, rfl⟩ := calls.eq_called normal stepped
  have sameTop := run.memRead_eq (State.wf_called wf r) (.self deep _)
  obtain ⟨x, ran', behind, restored⟩ := comesBack v run.sp_eq sameTop
  obtain rfl : w = x := returns.eq_of_exec stepped' ran'
  exact ⟨behind, restored⟩

/-! ### HLT -/

/-- Under an allowed map the opcode of HLT decodes wherever it stands: it has no operands. -/
theorem DecodesTo.hlt_of_fetchOpcode {m : OpcodeMap} {s : State} (valid : m.valid = true)
    (fetched : s.fetchOpcode = m.hlt) : DecodesTo m s .hlt :=
  ⟨_, decodeAtWith_ok_iff.mpr ⟨fetched ▸ decodeOpcodeWith_byteOf valid .hlt, rfl⟩⟩

/-- From HALTED no step is defined (rule R31). -/
theorem stepWith_of_halted (m : OpcodeMap) {s : State} (halted : s.run = .halted) :
    stepWith m s = .fault .noStepHalted := by
  simp only [stepWith, halted]

/-- Settles O21: HLT has no check and takes its effect, also as the step on its opcode. -/
theorem hltHaltsAndChangesNothingElse : Obligations.HltHaltsAndChangesNothingElse := by
  refine ⟨fun _ => rfl, fun s => ?_, fun m s valid running fetched => ?_⟩
  · exact ⟨s.halt, Effect.hlt.exec_eq, rfl, rfl, rfl, Effect.hlt.keepsRegsExcept, fun _ => rfl, rfl⟩
  · have stepped := (DecodesTo.hlt_of_fetchOpcode valid fetched).stepWith_eq running
    exact ⟨s.halt, stepped.trans Effect.hlt.exec_eq, rfl, rfl, stepWith_of_halted m rfl⟩

end Sys2Proof.Machine

/-! ## The output port and the status port (rules R143, R144), and O45, O46 -/

namespace Sys2Proof.Machine

/-- A step that appends one byte to `out` sends that byte. -/
theorem outPortWith_of_emitted {m : OpcodeMap} {s t : State} {v : Byte} (stepped : stepWith m s = .next t)
    (emitted : t.out = s.out ++ [v]) : outPortWith m s = some v := by
  simp [outPortWith, stepped, emitted]

/-- A step that keeps `out` sends nothing. -/
theorem outPortWith_of_silent {m : OpcodeMap} {s t : State} (stepped : stepWith m s = .next t)
    (silent : t.out = s.out) : outPortWith m s = none := by
  simp [outPortWith, stepped, silent]

/-- A step appends to `out` what it sends. -/
theorem stepWith_out_eq {m : OpcodeMap} {s t : State} (stepped : stepWith m s = .next t) :
    t.out = s.out ++ (outPortWith m s).toList := by
  obtain silent | ⟨a, r, -, -, emitted⟩ := stepWith_out_cases stepped
  · simp [outPortWith_of_silent stepped silent, silent]
  · simp [outPortWith_of_emitted stepped emitted, emitted]

/-- A run appends to `out` what is sampled during it. -/
theorem runForWith_out_eq (m : OpcodeMap) (k : Nat) (s : State) :
    (runForWith m k s).out = s.out ++ outSamplesWith m k s := by
  induction k generalizing s with
  | zero => exact (List.append_nil _).symm
  | succ k ih =>
    cases stepped : stepWith m s with
    | next t => simp [runForWith, outSamplesWith, stepped, ih t, stepWith_out_eq stepped]
    | fault | refused => simp [runForWith, outSamplesWith, stepped]

/-- Only a PRN at `pc` sends a value. -/
theorem outPortWith_of_not_prn {m : OpcodeMap} {s : State} (other : ¬ ∃ reg, DecodesTo m s (.prn reg)) :
    outPortWith m s = none := by
  cases stepped : stepWith m s with
  | next t =>
    obtain silent | ⟨a, -, decodes, -⟩ := stepWith_out_cases stepped
    · exact outPortWith_of_silent stepped silent
    · exact absurd ⟨a, decodes⟩ other
  | fault | refused => simp [outPortWith, stepped]

/-- Settles O45: a run by what each step appends, PRN by its effect, any other step by `out` being kept. -/
theorem outputPortCarriesTheStream : Obligations.OutputPortCarriesTheStream := by
  refine ⟨runForWith_out_eq, fun m s a r running decodes ha hp => ?_, fun m s => outPortWith_of_not_prn⟩
  have inRange : s.pc.toNat + 1 + 1 ≤ 255 := by omega
  exact outPortWith_of_emitted ((decodes.stepWith_eq running).trans (Effect.prn ha inRange).exec_eq) rfl

/-- `halted` is high from HALTED only. -/
theorem State.statusPort_halted_iff (s : State) : s.statusPort.halted = true ↔ s.run = .halted := decide_eq_true_iff

/-- `faulted` is high from FAULTED only. -/
theorem State.statusPort_faulted_iff (s : State) : s.statusPort.faulted = true ↔ s.run = .faulted :=
  decide_eq_true_iff

/-- A fault record at its reset value drives the fault outputs to 0. -/
theorem State.statusPort_of_fault_zero {s : State} (h : s.fault = .zero) :
    s.statusPort.faultCause = 0 ∧ s.statusPort.faultSpace = 0 ∧ s.statusPort.faultAddr = 0 ∧
      s.statusPort.faultVal = 0 := by
  simp [State.statusPort, h, FaultRecord.zero, Cause.code, Space.bit]

/-- The causes a program can leave have the codes 1 and 2 (rule R160). -/
theorem FaultRecord.Reachable.code_cause {f : FaultRecord} (h : f.Reachable) : f.cause.code = 1 ∨ f.cause.code = 2 := by
  obtain ⟨cause, -⟩ | ⟨cause, -⟩ | ⟨cause, -⟩ := h
  · exact .inl (congrArg Cause.code cause)
  · exact .inr (congrArg Cause.code cause)
  · exact .inr (congrArg Cause.code cause)

/-- Settles O46: the outputs before and after a fault are those of the record the invariant names, and a stopped run
keeps its state. -/
theorem statusPortShowsTheFaultOnlyWhenFaulted : Obligations.StatusPortShowsTheFaultOnlyWhenFaulted := by
  rintro m s ⟨-, unfaulted, faulted⟩
  refine ⟨s.statusPort_halted_iff, s.statusPort_faulted_iff, fun h => State.statusPort_of_fault_zero (unfaulted h),
    fun h => ?_, fun stopped k => by rw [runForWith_stopped m stopped]⟩
  obtain ⟨reachable, addr⟩ := faulted h
  exact ⟨reachable.code_cause, addr⟩

end Sys2Proof.Machine

/-! ## The rendering (rule R148): the digits of a byte's text, the text of a stream, and O48 -/

namespace Sys2Proof.Machine

/-- The code of a digit is 48 and its value. -/
theorem digit_toNat {d : Nat} (h : d < 10) : (digit d).toNat = 48 + d := by
  rw [digit, BitVec.toNat_ofNat]
  omega

/-- The digit 0 alone has the code 0x30. -/
theorem digit_eq_iff {d : Nat} (h : d < 10) : digit d = 0x30 ↔ d = 0 := by
  rw [← BitVec.toNat_inj, digit_toNat h]
  exact Nat.add_eq_left

/-- A byte's text is its one, two or three digits, the first of several not 0. -/
theorem decimal_cases (v : Byte) :
    (∃ a, a < 10 ∧ v.toNat = a ∧ decimal v = [digit a]) ∨
    (∃ a b, 0 < a ∧ a < 10 ∧ b < 10 ∧ v.toNat = 10 * a + b ∧ decimal v = [digit a, digit b]) ∨
    (∃ a b c, 0 < a ∧ a < 10 ∧ b < 10 ∧ c < 10 ∧ v.toNat = 10 * (10 * a + b) + c ∧
      decimal v = [digit a, digit b, digit c]) := by
  have byte : v.toNat < 256 := v.isLt
  by_cases one : v.toNat < 10
  · exact .inl ⟨_, one, rfl, if_pos one⟩
  · by_cases two : v.toNat < 100
    · exact .inr (.inl ⟨v.toNat / 10, v.toNat % 10, by omega, by omega, by omega, by omega, by simp [decimal, one, two]⟩)
    · exact .inr (.inr ⟨v.toNat / 100, v.toNat / 10 % 10, v.toNat % 10, by omega, by omega, by omega, by omega, by omega,
        by simp [decimal, one, two]⟩)

/-- The number a text of decimal digits denotes. -/
def decimalValue (text : List Byte) : Nat := text.foldl (fun n d => 10 * n + (d.toNat - 48)) 0

/-- A byte's text denotes the byte. -/
theorem decimalValue_decimal (v : Byte) : decimalValue (decimal v) = v.toNat := by
  obtain ⟨a, ha, value, text⟩ | ⟨a, b, -, ha, hb, value, text⟩ | ⟨a, b, c, -, ha, hb, hc, value, text⟩ := decimal_cases v
  · simp [decimalValue, text, value, digit_toNat ha]
  · simp [decimalValue, text, value, digit_toNat ha, digit_toNat hb]
  · simp [decimalValue, text, value, digit_toNat ha, digit_toNat hb, digit_toNat hc]

/-- Bytes with the same text are the same. -/
theorem decimal_injective : Function.Injective decimal := fun v w h =>
  BitVec.eq_of_toNat_eq (by rw [← decimalValue_decimal v, h, decimalValue_decimal w])

/-- The ASCII code of a decimal digit. -/
abbrev IsDigit (d : Byte) : Prop := 48 ≤ d.toNat ∧ d.toNat ≤ 57

/-- A digit's code is one. -/
theorem isDigit_digit {d : Nat} (h : d < 10) : IsDigit (digit d) := by
  have code := digit_toNat h
  omega

/-- A byte's text consists of digits. -/
theorem isDigit_of_mem_decimal {v : Byte} : ∀ d ∈ decimal v, IsDigit d := by
  obtain ⟨a, ha, -, text⟩ | ⟨a, b, -, ha, hb, -, text⟩ | ⟨a, b, c, -, ha, hb, hc, -, text⟩ := decimal_cases v
  · simpa [text] using isDigit_digit ha
  · simpa [text] using And.intro (isDigit_digit ha) (isDigit_digit hb)
  · simpa [text] using And.intro (isDigit_digit ha) (And.intro (isDigit_digit hb) (isDigit_digit hc))

/-- A text that begins with 0 is that of 0, and nothing follows. -/
theorem decimal_leading_zero {v : Byte} (h : (decimal v).head? = some 0x30) : v = 0 ∧ (decimal v).length = 1 := by
  obtain ⟨a, ha, value, text⟩ | ⟨a, b, pos, ha, -, -, text⟩ | ⟨a, b, c, pos, ha, -, -, -, text⟩ := decimal_cases v <;>
    rw [text, List.head?_cons, Option.some_inj, digit_eq_iff ha] at h
  · exact ⟨BitVec.eq_of_toNat_eq (value.trans h), by rw [text]; rfl⟩
  · exact absurd h pos.ne'
  · exact absurd h pos.ne'

/-- Where no digit follows, a byte's text is the digits the whole text begins with. -/
theorem takeWhile_isDigit_decimal {c : Byte} (nonDigit : ¬ IsDigit c) (v : Byte) (l : List Byte) :
    (decimal v ++ c :: l).takeWhile (IsDigit ·) = decimal v := by
  have digits : ∀ d ∈ decimal v, decide (IsDigit d) = true := fun d hd => decide_eq_true (isDigit_of_mem_decimal d hd)
  rw [List.takeWhile_append_of_pos digits, List.takeWhile_cons_of_neg (by simpa using nonDigit), List.append_nil]

/-- Where no digit follows, a byte's text and what stands behind it are told apart. -/
theorem decimal_append_inj {c : Byte} (nonDigit : ¬ IsDigit c) {v w : Byte} {l r : List Byte}
    (h : decimal v ++ c :: l = decimal w ++ c :: r) : v = w ∧ l = r := by
  have same : decimal v = decimal w := by
    rw [← takeWhile_isDigit_decimal nonDigit v l, h, takeWhile_isDigit_decimal nonDigit w r]
  rw [same] at h
  exact ⟨decimal_injective same, List.tail_eq_of_cons_eq (List.append_cancel_left h)⟩

/-- The text of a stream is that of its first byte and then that of the others (rule R148). -/
theorem renderWith_cons (terminator out : List Byte) (v : Byte) :
    renderWith terminator (v :: out) = decimal v ++ terminator ++ renderWith terminator out := rfl

/-- A line terminator that begins with no digit lets no two streams share a text. -/
theorem renderWith_injective {c : Byte} (nonDigit : ¬ IsDigit c) (rest : List Byte) :
    Function.Injective (renderWith (c :: rest)) := by
  intro a
  induction a with
  | nil =>
    rintro (_ | ⟨w, b⟩) h
    · rfl
    · simp [renderWith] at h
  | cons v a ih =>
    rintro (_ | ⟨w, b⟩) h
    · simp [renderWith] at h
    · simp only [renderWith_cons, List.append_assoc, List.cons_append] at h
      obtain ⟨rfl, same⟩ := decimal_append_inj nonDigit h
      rw [ih (List.append_cancel_left same)]

/-- Settles O48: each text can be cut off where its terminator begins, and is its byte's digits. -/
theorem renderingIsInjective : Obligations.RenderingIsInjective := by
  refine ⟨fun a b => ?_, fun c rest a b outside => ?_,
    fun v => ⟨decimalValue_decimal v, isDigit_of_mem_decimal, decimal_leading_zero⟩⟩
  · exact fun h => renderWith_injective (c := 0x0A) (by decide) [] h
  · exact fun h => renderWith_injective (fun ⟨low, high⟩ => by omega) rest h

end Sys2Proof.Machine

/-! ## Fault entry and what follows it (rules R168, R169): the faults a step can enter, and O37, O38 -/

namespace Sys2Proof.Machine

/-- No effect ends FAULTED when it began RUNNING. -/
theorem Effect.run_ne_faulted {s t : State} {i : Instr} (h : Effect s i t) (running : s.run = .running) :
    t.run ≠ .faulted := by
  obtain kept | ⟨-, halted⟩ := h.run_cases
  · simp [kept, running]
  · simp [halted]

/-- A step that ends FAULTED has entered the fault of that step. -/
theorem stepWith_faulted {m : OpcodeMap} {s t : State} (stepped : stepWith m s = .next t) (faulted : t.run = .faulted) :
    ∃ e, StepFault m s e ∧ t = s.raise e := by
  obtain ⟨running, ⟨i, -, effect⟩ | entered⟩ := stepWith_ends stepped
  · exact absurd faulted (effect.run_ne_faulted running)
  · exact entered

/-- The fault of a step by the bytes at `pc`: the opcode is none (rule R82), the instruction reaches past address 255
(rule R85), or one of its register operands is above 7 (rule R84). -/
theorem StepFault.exception_cases {m : OpcodeMap} {s : State} {e : Exception} (h : StepFault m s e) :
    e = .unknownOpcode (s.memRead s.pc) ∨
    (∃ mn, decodeOpcodeWith m s.fetchOpcode = some mn ∧ mn.operandCount ≠ 0 ∧
      255 < s.pc.toNat + 1 + mn.operandCount ∧ e = s.rangeException mn.operandCount) ∨
    ∃ i b, DecodesTo m s i ∧ b ∈ i.regOperands ∧ 7 < b.toNat ∧ e = .addressOutOfRangeReg b := by
  cases h with
  | @check i _ decodes failed =>
    cases failed with
    | range hn hp =>
      obtain ⟨rest, hd⟩ := decodes
      exact .inr (.inl ⟨i.mnemonic, (decodeAtWith_ok hd).1, hn, hp, rfl⟩)
    | @reg b hb found _ => exact .inr (.inr ⟨i, b, decodes, List.mem_of_find?_eq_some found, hb, rfl⟩)
  | reject rejected =>
    obtain ⟨-, rfl⟩ | ⟨mn, matched, rfl, missing⟩ := decodeAtWith_error rejected
    · exact .inl rfl
    · obtain ⟨beyond, hn⟩ := State.operandWindow_short missing (Mnemonic.operandCount_le mn)
      exact .inr (.inl ⟨mn, matched, hn, by omega, rfl⟩)

/-- The record of a failed range check holds by how much the instruction passes address 255 (rule R163): the excess is
at most 2, so its 8 bits lose nothing. -/
theorem State.rangeException_val_toNat {s : State} {n : Nat} (hn : n ≤ 2) (hp : 255 < s.pc.toNat + 1 + n) :
    ((s.rangeException n).record s.pc).val.toNat + 256 = s.pc.toNat + 1 + n := by
  have hpc := s.pc.isLt
  have fits : s.pc.toNat + 1 + n - 256 < 2 ^ 8 := by omega
  simp only [State.rangeException, Exception.record, BitVec.toNat_ofNat, Nat.mod_eq_of_lt fits]
  omega

/-- Settles O37: a step that ends FAULTED has raised its fault and done nothing else, and that fault is one of
three. -/
theorem faultsArePrecise : Obligations.FaultsArePrecise := by
  intro m s t stepped faulted
  obtain ⟨e, fault, rfl⟩ := stepWith_faulted stepped faulted
  refine ⟨rfl, e.record_addr s.pc, ?_⟩
  obtain rfl | ⟨mn, matched, hn, hp, rfl⟩ | ⟨i, b, decodes, isOperand, hb, rfl⟩ := fault.exception_cases
  · exact .inl ⟨rfl, rfl, rfl⟩
  · exact .inr (.inl ⟨rfl, rfl, mn, matched, Nat.one_le_iff_ne_zero.mpr hn,
      State.rangeException_val_toNat (Mnemonic.operandCount_le mn) hp⟩)
  · exact .inr (.inr ⟨rfl, rfl, hb, i, decodes, isOperand⟩)

/-- Settles O38: a step exists from RUNNING only, and a run that has stopped is frozen. -/
theorem faultedCoreNeverResumes : Obligations.FaultedCoreNeverResumes := by
  refine ⟨fun m s faulted t stepped => ?_, fun m j k s faulted => ?_⟩
  · have running := (stepWith_cases stepped).1
    simp [faulted] at running
  · exact runForWith_frozen (by simp [faulted]) (Nat.le_add_right j k)

end Sys2Proof.Machine

/-! ## The invariant of the machine (rules R29, R32, R160): what a step does to it, and O41 -/

namespace Sys2Proof.Machine

/-- An effect keeps memory in canonical form: it stores one byte or none. -/
theorem Effect.wf {s t : State} {i : Instr} (h : Effect s i t) (wf : Memory.wf s.mem = true) :
    Memory.wf t.mem = true := by
  obtain ⟨-, kept⟩ | ⟨a, v, -, stored⟩ := h.mem_cases
  · rwa [kept]
  · rw [stored]
    exact State.wf_memWrite s a v wf

/-- The record of a step's fault is one that a program can leave. -/
theorem StepFault.record_reachable {m : OpcodeMap} {s : State} {e : Exception} (h : StepFault m s e) :
    (e.record s.pc).Reachable := by
  obtain rfl | ⟨mn, -, -, beyond, rfl⟩ | ⟨i, b, -, -, above, rfl⟩ := h.exception_cases
  · exact .inl ⟨rfl, rfl⟩
  · have count := Mnemonic.operandCount_le mn
    have excess := State.rangeException_val_toNat count beyond
    have pcLast : 253 ≤ s.pc.toNat := by omega
    have small : ((s.rangeException mn.operandCount).record s.pc).val.toNat ≤ 2 := by omega
    exact .inr (.inl ⟨rfl, rfl, pcLast, small⟩)
  · exact .inr (.inr ⟨rfl, rfl, above⟩)

/-- Settles O41: an effect never ends FAULTED and keeps the zero record; a fault keeps memory and records its own
`pc`. -/
theorem stepKeepsTheInvariant : Obligations.StepKeepsTheInvariant := by
  rintro m s t ⟨wf, unfaulted, -⟩ stepped
  obtain ⟨running, ⟨i, -, effect⟩ | ⟨e, fault, rfl⟩⟩ := stepWith_ends stepped
  · have zero : s.fault = .zero := unfaulted (by simp [running])
    exact ⟨effect.wf wf, fun _ => effect.fault_eq.trans zero,
      fun faulted => absurd faulted (effect.run_ne_faulted running)⟩
  · exact ⟨wf, fun notFaulted => absurd (State.raise_run s e) notFaulted,
      fun _ => ⟨fault.record_reachable, e.record_addr s.pc⟩⟩

end Sys2Proof.Machine

/-! ## Reset and boot (rules R35, R180 to R185): the state the load leaves, and O1, O40, O2, O5 -/

namespace Sys2Proof.Machine

/-- Registers 0 to 6 hold `GPR_INIT` at reset. -/
@[simp] theorem State.getReg_resetWith (gprs : Vector Byte 7) (sp : Byte) (r : Fin 7) :
    (State.resetWith gprs sp).getReg r.castSucc = gprs[r] :=
  Vector.getElem_push_lt r.isLt

/-- The stack pointer holds `SP_INIT` at reset. -/
@[simp] theorem State.sp_resetWith (gprs : Vector Byte 7) (sp : Byte) : (State.resetWith gprs sp).sp = sp :=
  Vector.getElem_push_eq

/-- Settles O1: every register but the stack pointer is one of the seven that `GPR_INIT` sets. -/
theorem resetHoldsTheListedValues : Obligations.ResetHoldsTheListedValues := by
  refine ⟨fun _ => rfl, fun r notSp => ?_, State.sp_resetWith _ _, rfl, rfl, rfl, rfl⟩
  obtain ⟨k, rfl⟩ := Fin.exists_castSucc_eq.mpr notSp
  rw [State.reset, State.getReg_resetWith]
  exact Vector.getElem_replicate k.isLt

/-- The core as the load leaves it: reset, with the image in memory (rule R180). -/
def State.bootedWith (gprs : Vector Byte 7) (sp : Byte) (image : List Byte) : State :=
  { State.resetWith gprs sp with mem := ((State.resetWith gprs sp).loadFrom 0 image).mem }

/-- An image that fits boots. -/
theorem bootWith_of_fits {image : List Byte} (fits : image.length ≤ 256) (gprs : Vector Byte 7) (sp : Byte) :
    bootWith gprs sp image = .ok (State.bootedWith gprs sp image) := by
  rw [bootWith, if_pos fits, State.loadFrom_eq]
  rfl

/-- An image that does not fit is rejected (rule R154). -/
theorem bootWith_of_too_large {image : List Byte} (large : 256 < image.length) (gprs : Vector Byte 7) (sp : Byte) :
    bootWith gprs sp image = .error .imageTooLarge :=
  if_neg (Nat.not_le_of_lt large)

/-- Inversion of a boot: the image fits, and the core is as the load leaves it. -/
theorem bootWith_cases {gprs : Vector Byte 7} {sp : Byte} {image : List Byte} {s : State}
    (h : bootWith gprs sp image = .ok s) : image.length ≤ 256 ∧ s = State.bootedWith gprs sp image := by
  obtain fits | large := le_or_gt image.length 256
  · rw [bootWith_of_fits fits] at h
    exact ⟨fits, (Except.ok.inj h).symm⟩
  · rw [bootWith_of_too_large large] at h
    cases h

/-- The load leaves memory in canonical form. -/
theorem State.wf_bootedWith (gprs : Vector Byte 7) (sp : Byte) (image : List Byte) :
    Memory.wf (State.bootedWith gprs sp image).mem = true :=
  State.wf_loadFrom _ 0 image rfl

/-- A RUNNING core with canonical memory and the zero record meets the invariant. -/
theorem State.inv_of_running {s : State} (wf : Memory.wf s.mem = true) (running : s.run = .running)
    (zero : s.fault = .zero) : s.Inv :=
  ⟨wf, fun _ => zero, fun faulted => by simp [running] at faulted⟩

/-- Settles O40: the core starts RUNNING with the zero record, and the load goes through memory writes. -/
theorem bootMeetsTheInvariant : Obligations.BootMeetsTheInvariant := by
  refine ⟨State.inv_of_running Memory.wf_reset rfl rfl, fun gprs sp image s booted => ?_⟩
  obtain ⟨-, rfl⟩ := bootWith_cases booted
  exact State.inv_of_running (State.wf_bootedWith gprs sp image) rfl rfl

/-- Bytes placed in memory from address `a` up read back in order; every other cell is as it was. -/
theorem State.memRead_placeAt {s : State} (wf : Memory.wf s.mem = true) (a : Nat) (bs : List Byte) (d : Addr) :
    (s.placeAt a bs).memRead d = if a ≤ d.toNat then bs[d.toNat - a]?.getD (s.memRead d) else s.memRead d := by
  induction bs generalizing s a with
  | nil => simp [State.placeAt]
  | cons b bs ih =>
    have byte := d.isLt
    simp only [State.placeAt]
    split
    next below =>
      have here : d = BitVec.ofNat 8 a ↔ d.toNat = a := by
        rw [← BitVec.toNat_inj, BitVec.toNat_ofNat, Nat.mod_eq_of_lt below]
      rw [ih (State.wf_memWrite s _ b wf), State.memRead_memWrite wf]
      simp only [here]
      obtain before | rfl | behind := Nat.lt_trichotomy d.toNat a
      · rw [if_neg (by omega), if_neg (by omega), if_neg (by omega)]
      · simp
      · have index : d.toNat - a = d.toNat - (a + 1) + 1 := by omega
        rw [if_pos (by omega), if_neg (by omega), if_pos (by omega), index, List.getElem?_cons_succ]
    next above => rw [if_neg (by omega)]

/-- Loading an image that fits is placing its bytes. -/
theorem State.loadFrom_eq_placeAt {a : Nat} {bs : List Byte} (fits : a + bs.length ≤ 256) (s : State) :
    s.loadFrom a bs = s.placeAt a bs := by
  induction bs generalizing s a with
  | nil => rfl
  | cons b bs ih =>
    rw [List.length_cons] at fits
    rw [State.loadFrom, State.placeAt, if_pos (by omega), ih (by omega)]
    rfl

/-- After the load a cell holds the image's byte, and 0 where the image has none. -/
theorem State.memRead_bootedWith {image : List Byte} (fits : image.length ≤ 256) (gprs : Vector Byte 7) (sp : Byte)
    (d : Addr) : (State.bootedWith gprs sp image).memRead d = image[d.toNat]?.getD 0 := by
  have loaded := State.loadFrom_eq_placeAt (a := 0) (bs := image) (by omega) (State.resetWith gprs sp)
  calc (State.bootedWith gprs sp image).memRead d
    _ = ((State.resetWith gprs sp).placeAt 0 image).memRead d := congrArg (fun s => s.memRead d) loaded
    _ = image[d.toNat]?.getD 0 := State.memRead_placeAt rfl 0 image d

/-- From the image's end on every cell is as it was cleared. -/
theorem State.memRead_bootedWith_of_le {image : List Byte} (fits : image.length ≤ 256) (gprs : Vector Byte 7)
    (sp : Byte) {d : Addr} (behind : image.length ≤ d.toNat) : (State.bootedWith gprs sp image).memRead d = 0 := by
  rw [State.memRead_bootedWith fits, List.getElem?_eq_none behind]
  rfl

/-- Settles O2: the load is the writes of its bytes over the reset state. -/
theorem bootLoadsTheImageOverZeroedMemory : Obligations.BootLoadsTheImageOverZeroedMemory := by
  intro gprs sp image fits
  refine ⟨State.bootedWith gprs sp image, bootWith_of_fits fits gprs sp, fun i inImage => ?_,
    fun a => State.memRead_bootedWith_of_le fits gprs sp, State.getReg_resetWith gprs sp, State.sp_resetWith gprs sp,
    rfl, rfl, rfl, rfl, rfl⟩
  have address : (BitVec.ofNat 8 i).toNat = i := Nat.mod_eq_of_lt (by omega)
  rw [State.memRead_bootedWith fits, address, List.getElem?_eq_getElem inImage]
  rfl

/-- A step that ends HALTED ran HLT. -/
theorem stepWith_halted {m : OpcodeMap} {s t : State} (stepped : stepWith m s = .next t) (halted : t.run = .halted) :
    s.run = .running ∧ DecodesTo m s .hlt := by
  obtain ⟨running, ⟨i, decodes, effect⟩ | ⟨e, -, rfl⟩⟩ := stepWith_ends stepped
  · obtain kept | ⟨rfl, -⟩ := effect.run_cases
    · simp [kept, running] at halted
    · exact ⟨running, decodes⟩
  · simp at halted

/-- The opcode byte of a decoded instruction is the map's byte of it. -/
theorem DecodesTo.fetchOpcode_eq {m : OpcodeMap} {s : State} {i : Instr} (h : DecodesTo m s i) :
    s.fetchOpcode = m.byteOf i.mnemonic := by
  obtain ⟨rest, decoded⟩ := h
  exact decodeOpcodeWith_some (decodeAtWith_ok decoded).1

/-- A cell that holds 0 is no opcode of an allowed map: the step on it faults. -/
theorem stepWith_of_memRead_pc_zero {m : OpcodeMap} {s : State} (valid : m.valid = true) (running : s.run = .running)
    (zero : s.memRead s.pc = 0) :
    stepWith m s = .next { s with run := .faulted, fault := ⟨.unknownOpcode, .mem, s.pc, 0⟩ } := by
  have illegal : decodeOpcodeWith m s.fetchOpcode = none := by
    rw [State.fetchOpcode, zero, decodeOpcodeWith_zero valid]
  have stepped := illegalOpcodeFaults.1 m s running illegal
  rwa [zero] at stepped

/-- Settles O5: HLT alone ends HALTED, and the cells behind the image hold 0, which no allowed map decodes. -/
theorem onlyHltEndsARunNormally : Obligations.OnlyHltEndsARunNormally := by
  refine ⟨fun m s t stepped halted => ?_, fun m gprs sp image s₀ s valid booted behind untouched running => ?_,
    fun m gprs sp valid => ⟨rfl, stepWith_of_memRead_pc_zero valid rfl rfl⟩⟩
  · obtain ⟨running, decodes⟩ := stepWith_halted stepped halted
    exact ⟨running, decodes.fetchOpcode_eq⟩
  · obtain ⟨fits, rfl⟩ := bootWith_cases booted
    have zero := untouched.trans (State.memRead_bootedWith_of_le fits gprs sp behind)
    exact stepWith_of_memRead_pc_zero valid running zero

end Sys2Proof.Machine

/-! ## The canonical form of memory (log entry 14), and O7 -/

namespace Sys2Proof.Machine

/-- The canonical form, cell by cell. -/
theorem Memory.wfFrom_cons {lo a : Nat} {v : Byte} {rest : Memory} :
    Memory.wfFrom lo ((a, v) :: rest) = true ↔
      lo ≤ a ∧ a < 256 ∧ v ≠ Memory.unlisted ∧ Memory.wfFrom (a + 1) rest = true := by
  simp [Memory.wfFrom, and_assoc]

/-- The first listed address reads as its cell. -/
theorem Memory.read_head (a : Nat) (v : Byte) (rest : Memory) : Memory.read ((a, v) :: rest) a = v := if_pos rfl

/-- Every other address reads as the cells behind the first. -/
theorem Memory.read_tail {a d : Nat} (other : d ≠ a) (v : Byte) (rest : Memory) :
    Memory.read ((a, v) :: rest) d = Memory.read rest d := if_neg other.symm

/-- The memories `m` and `n` hold the same bytes. -/
def Memory.ReadAlike (m n : Memory) : Prop := ∀ a : Nat, a < 256 → Memory.read m a = Memory.read n a

/-- A canonical memory that lists a cell does not read like the empty one. -/
theorem Memory.not_readAlike_nil {lo a : Nat} {v : Byte} {rest : Memory}
    (wf : Memory.wfFrom lo ((a, v) :: rest) = true) : ¬ Memory.ReadAlike ((a, v) :: rest) [] := by
  obtain ⟨-, below, listed, -⟩ := Memory.wfFrom_cons.mp wf
  exact fun alike => listed ((Memory.read_head a v rest).symm.trans (alike a below))

/-- Of canonical memories that read alike, the one does not begin below the other. -/
theorem Memory.ReadAlike.head_le {lo a b : Nat} {v w : Byte} {m n : Memory}
    (alike : Memory.ReadAlike ((a, v) :: m) ((b, w) :: n)) (wfm : Memory.wfFrom lo ((a, v) :: m) = true)
    (wfn : Memory.wfFrom lo ((b, w) :: n) = true) : b ≤ a := by
  obtain ⟨-, below, listed, -⟩ := Memory.wfFrom_cons.mp wfm
  obtain ⟨-, below', listed', wfRest⟩ := Memory.wfFrom_cons.mp wfn
  by_contra! before
  have unlisted : Memory.read ((b, w) :: n) a = Memory.unlisted :=
    Memory.read_below _ (Memory.wfFrom_cons.mpr ⟨le_rfl, below', listed', wfRest⟩) before
  exact listed ((Memory.read_head a v m).symm.trans ((alike a below).trans unlisted))

/-- Canonical memories that begin at one address and read alike hold the same byte there and read alike behind it. -/
theorem Memory.ReadAlike.tail {a : Nat} {v w : Byte} {m n : Memory}
    (alike : Memory.ReadAlike ((a, v) :: m) ((a, w) :: n)) (below : a < 256) (wfm : Memory.wfFrom (a + 1) m = true)
    (wfn : Memory.wfFrom (a + 1) n = true) : v = w ∧ Memory.ReadAlike m n := by
  refine ⟨by simpa only [Memory.read_head] using alike a below, fun d byte => ?_⟩
  by_cases here : d = a
  · rw [Memory.read_below m wfm (by omega), Memory.read_below n wfn (by omega)]
  · simpa only [Memory.read_tail here] using alike d byte

/-- Canonical memories that read alike are one list. -/
theorem Memory.ReadAlike.eq {lo : Nat} {m n : Memory} (alike : Memory.ReadAlike m n)
    (wfm : Memory.wfFrom lo m = true) (wfn : Memory.wfFrom lo n = true) : m = n := by
  induction m generalizing lo n with
  | nil =>
    cases n with
    | nil => rfl
    | cons c n => exact absurd (fun a below => (alike a below).symm) (Memory.not_readAlike_nil wfn)
  | cons c m ih =>
    cases n with
    | nil => exact absurd alike (Memory.not_readAlike_nil wfm)
    | cons c' n =>
      obtain ⟨a, v⟩ := c
      obtain ⟨b, w⟩ := c'
      have noneBefore : a ≤ b := Memory.ReadAlike.head_le (fun d below => (alike d below).symm) wfn wfm
      obtain rfl : a = b := Nat.le_antisymm noneBefore (alike.head_le wfm wfn)
      obtain ⟨-, below, -, wfm'⟩ := Memory.wfFrom_cons.mp wfm
      obtain ⟨-, -, -, wfn'⟩ := Memory.wfFrom_cons.mp wfn
      obtain ⟨rfl, alike'⟩ := alike.tail below wfm' wfn'
      rw [ih alike' wfm' wfn']

/-- Settles O7, by induction on the cells from the lowest address up. -/
theorem memoriesThatReadAlikeAreEqual : Obligations.MemoriesThatReadAlikeAreEqual :=
  fun _ _ wfm wfn alike => Memory.ReadAlike.eq alike wfm wfn

end Sys2Proof.Machine

/-! ## The ALU's selects, SUB and DIV (rules R101, R104, R105), and O10 -/

namespace Sys2Proof.Machine

/-- The answer to a select that stands for SUB (rule R104): the difference, 256 more where it would be below 0. -/
theorem alu_of_sub {sel : BitVec 4} (h : aluOpOf sel = .sub) (p q : Byte) :
    ∃ r, alu sel p q = .ok r ∧
      r.toNat = if q.toNat ≤ p.toNat then p.toNat - q.toNat else p.toNat + 256 - q.toNat := by
  refine ⟨BitVec.ofInt 8 ((p.toNat : Int) - (q.toNat : Int)), by simp only [alu, h], ?_⟩
  have hp := p.isLt
  have hq := q.isLt
  rw [BitVec.toNat_ofInt]
  split
  · omega
  · omega

/-- The answer to a select that stands for DIV, the divisor not 0 (rule R105). -/
theorem alu_of_div {sel : BitVec 4} (h : aluOpOf sel = .div) (p : Byte) {q : Byte} (nonzero : q ≠ 0) :
    ∃ r, alu sel p q = .ok r ∧ r.toNat = p.toNat / q.toNat := by
  refine ⟨BitVec.ofNat 8 (p.toNat / q.toNat), by simp only [alu, h, if_neg nonzero], ?_⟩
  have fits : p.toNat / q.toNat < 2 ^ 8 := (Nat.div_le_self _ _).trans_lt p.isLt
  rw [BitVec.toNat_ofNat, Nat.mod_eq_of_lt fits]

/-- DIV has no answer to the divisor 0 (rule R105). -/
theorem alu_of_div_zero {sel : BitVec 4} (h : aluOpOf sel = .div) (p : Byte) :
    alu sel p 0 = .error .divideByZero := by
  simp only [alu, h, if_pos]

/-- The operations the selects stand for, by their numbers (decision D13). -/
theorem aluOpOf_eq (sel : BitVec 4) : aluOpOf sel = if sel.toNat = 0 then .add else if sel.toNat = 1 then .sub
    else if sel.toNat = 2 then .mul else if sel.toNat = 3 then .div else .other sel := by
  simp only [aluOpOf, ← BitVec.toNat_inj]
  rfl

/-- Settles O10: the ALU's answers to SUB and DIV, and the core's fault on the divisor 0. -/
theorem aluSubAndDivAndTheZeroDivisor : Obligations.AluSubAndDivAndTheZeroDivisor := by
  refine ⟨alu_of_sub rfl, fun p _ => alu_of_div rfl p, fun dst src s k zero => ?_, aluOpOf_eq⟩
  have failed : alu 0b0011 (s.getReg dst) (s.getReg src) = .error .divideByZero := by
    rw [zero]
    exact alu_of_div_zero rfl _
  exact aluApply_of_error failed k

end Sys2Proof.Machine

/-! ## The opcode bytes of a map (rules R65, R68), and O31 -/

namespace Sys2Proof.Machine

/-- The map's byte of an instruction is one of its nine values. -/
theorem OpcodeMap.byteOf_mem_values (m : OpcodeMap) (mn : Mnemonic) : m.byteOf mn ∈ m.values := by
  cases mn <;> simp [OpcodeMap.byteOf, OpcodeMap.values]

/-- Every value of the map is its byte of some instruction. -/
theorem OpcodeMap.exists_byteOf_of_mem {m : OpcodeMap} {b : Byte} (h : b ∈ m.values) : ∃ mn, b = m.byteOf mn := by
  simp only [OpcodeMap.values, List.mem_cons, List.not_mem_nil, or_false] at h
  obtain h | h | h | h | h | h | h | h | h := h
  exacts [⟨.ldi, h⟩, ⟨.prn, h⟩, ⟨.mul, h⟩, ⟨.add, h⟩, ⟨.push, h⟩, ⟨.pop, h⟩, ⟨.call, h⟩, ⟨.ret, h⟩, ⟨.hlt, h⟩]

/-- A byte is an opcode of an allowed map exactly when it is one of the map's nine values. -/
theorem decodeOpcodeWith_isSome_iff {m : OpcodeMap} (valid : m.valid = true) (b : Byte) :
    (decodeOpcodeWith m b).isSome = true ↔ b ∈ m.values := by
  refine ⟨fun matched => ?_, fun listed => ?_⟩
  · obtain ⟨mn, hmn⟩ := Option.isSome_iff_exists.mp matched
    exact decodeOpcodeWith_some hmn ▸ OpcodeMap.byteOf_mem_values m mn
  · obtain ⟨mn, rfl⟩ := OpcodeMap.exists_byteOf_of_mem listed
    rw [decodeOpcodeWith_byteOf valid]
    rfl

/-- The default map is one that rule R65 allows. -/
theorem opcodeMap_valid : Config.opcodeMap.valid = true := by decide

/-- The bytes of an instruction, written out, decode to it under the default map. -/
theorem decode_of_eq_encode {i : Instr} {bs : List Byte} (h : bs = encode i) : decode bs = .ok (i, []) := by
  have inverse := decodeInvertsEncode Config.opcodeMap i [] opcodeMap_valid
  rwa [List.append_nil, ← encode, ← h] at inverse

/-- Settles O31: each word is an encoding, and the nine bytes are the values of the default map. -/
theorem defaultOpcodesDecodeAsTabled : Obligations.DefaultOpcodesDecodeAsTabled :=
  ⟨opcodeMap_valid, decode_of_eq_encode rfl, decode_of_eq_encode rfl, decode_of_eq_encode rfl, decode_of_eq_encode rfl,
    decode_of_eq_encode rfl, decode_of_eq_encode rfl, decode_of_eq_encode rfl, decode_of_eq_encode rfl,
    decode_of_eq_encode rfl, decodeOpcodeWith_isSome_iff opcodeMap_valid⟩

end Sys2Proof.Machine

/-! ## A word placed at `pc` (log entry 11): the bytes there as far as they exist, and O34 -/

namespace Sys2Proof.Machine

@[simp] theorem State.placeAt_pc (s : State) (a : Nat) (bs : List Byte) : (s.placeAt a bs).pc = s.pc := by
  rw [State.placeAt_eq]

@[simp] theorem State.placeAt_run (s : State) (a : Nat) (bs : List Byte) : (s.placeAt a bs).run = s.run := by
  rw [State.placeAt_eq]

/-- Where the opcode byte matches an instruction and the window holds as many of the bytes behind it as there are, a
RUNNING core runs that instruction: where operand bytes are missing, both raise the range fault (rule R85). -/
theorem stepWith_of_window_prefix {m : OpcodeMap} {s : State} {i : Instr} {rest : List Byte}
    (running : s.run = .running) (matched : decodeOpcodeWith m s.fetchOpcode = some i.mnemonic)
    (window : s.operandWindow <+: i.operands ++ rest) :
    stepWith m s = exec i s := by
  cases decoded : decodeAtWith m s.fetchOpcode s.operandWindow with
  | ok p =>
    obtain ⟨matched', leads⟩ := decodeAtWith_ok decoded
    have same : p.1.mnemonic = i.mnemonic := Option.some.inj (matched'.symm.trans matched)
    have whole : i.operands.length ≤ s.operandWindow.length := by
      rw [leads, List.length_append, operands_length, operands_length, same]
      exact Nat.le_add_right _ _
    obtain ⟨rest', leads'⟩ := List.prefix_of_prefix_length_le (List.prefix_append _ _) window whole
    exact DecodesTo.stepWith_eq ⟨rest', decodeAtWith_ok_iff.mpr ⟨matched, leads'.symm⟩⟩ running
  | error r =>
    obtain ⟨illegal, -⟩ | ⟨mn, matched', rfl, missing⟩ := decodeAtWith_error decoded
    · simp [illegal] at matched
    · obtain rfl : mn = i.mnemonic := Option.some.inj (matched'.symm.trans matched)
      obtain ⟨beyond, hn⟩ := State.operandWindow_short missing (Mnemonic.operandCount_le _)
      have past : 255 < s.pc.toNat + 1 + i.operandCount := beyond.trans_le (Nat.add_le_add_right (Nat.le_succ _) _)
      have failed : FirstFailed s i (s.rangeException i.operandCount) := .range hn past
      rw [stepWith_of_rejected decoded running, failed.exec_eq]
      rfl

/-- A byte of a placed word reads back where it lies below address 256. -/
theorem State.memRead_placeAt_pc {s : State} (wf : Memory.wf s.mem = true) {bs : List Byte} {k : Nat}
    (placed : k < bs.length) (below : s.pc.toNat + k < 256) :
    (s.placeAt s.pc.toNat bs).memRead (s.pc + BitVec.ofNat 8 k) = bs[k] := by
  have address : (s.pc + BitVec.ofNat 8 k).toNat = s.pc.toNat + k := by
    rw [← State.ofNat_pc_add, BitVec.toNat_ofNat, Nat.mod_eq_of_lt below]
  rw [State.memRead_placeAt wf, address, if_pos (Nat.le_add_right _ _), Nat.add_sub_cancel_left,
    List.getElem?_eq_getElem placed]
  rfl

/-- The step on a placed word fetches its first byte. -/
theorem State.fetchOpcode_placeAt_pc {s : State} (wf : Memory.wf s.mem = true) (op : Byte) (bs : List Byte) :
    (s.placeAt s.pc.toNat (op :: bs)).fetchOpcode = op := by
  have first := State.memRead_placeAt_pc (k := 0) wf (bs := op :: bs) (Nat.succ_pos _) s.pc.isLt
  simpa [State.fetchOpcode] using first

/-- The window on a placed word holds its other bytes as far as they lie below address 256. -/
theorem State.operandWindow_placeAt_pc {s : State} (wf : Memory.wf s.mem = true) (op a b : Byte) :
    (s.placeAt s.pc.toNat [op, a, b]).operandWindow <+: [a, b] := by
  simp only [State.operandWindow, State.placeAt_pc]
  split
  next two =>
    have first : _ = a := State.memRead_placeAt_pc (bs := [op, a, b]) (k := 1) wf (by simp) (by omega)
    have second : _ = b := State.memRead_placeAt_pc (bs := [op, a, b]) (k := 2) wf (by simp) two
    exact ⟨[], congrArg₂ (fun x y => [x, y]) first second⟩
  next =>
    split
    next one =>
      have first : _ = a := State.memRead_placeAt_pc (bs := [op, a, b]) (k := 1) wf (by simp) one
      exact ⟨[b], congrArg (fun x => [x, b]) first⟩
    next => exact List.nil_prefix

/-- What `decodeTableWord` reads from a word's bytes: a matching opcode byte, the operands, and the rest. -/
theorem decodeTableWord_some {nbits w : Nat} {i : Instr} (h : decodeTableWord nbits w = some i) :
    ∃ op rest, decodeOpcodeWith Config.opcodeMap op = some i.mnemonic ∧
      tableBytes nbits w = op :: (i.operands ++ rest) := by
  simp only [decodeTableWord] at h
  split at h
  next j rest decoded =>
    obtain rfl := Option.some.inj h
    obtain ⟨op, matched, bytes⟩ := decodeWith_ok_iff.mp decoded
    exact ⟨op, rest, matched, bytes⟩
  next => cases h

/-- Settles O34: the word's first byte matches the instruction, and the window holds the others as far as they
exist. -/
theorem placedWordIsTheNextInstruction : Obligations.PlacedWordIsTheNextInstruction := by
  intro s nbits w i wf running read
  obtain ⟨op, rest, matched, bytes⟩ := decodeTableWord_some read
  obtain ⟨a, b, window⟩ : ∃ a b, i.operands ++ rest = [a, b] := ⟨_, _, (List.tail_eq_of_cons_eq bytes).symm⟩
  rw [State.withFetchWord, bytes, window]
  refine stepWith_of_window_prefix (rest := rest) ((State.placeAt_run _ _ _).trans running) ?_ ?_
  · rw [State.fetchOpcode_placeAt_pc wf, matched]
  · rw [window]
    exact State.operandWindow_placeAt_pc wf op a b

end Sys2Proof.Machine

/-! ## The image text and its loader (rules R150 to R155), and O3, O4 -/

namespace Sys2Proof.Machine

/-- A text that is no image never starts the core (rule R153). -/
theorem bootTextWith_of_error {marker : Char} {text : List Char} {e : LoadError}
    (malformed : parseImageWith marker text = .error e) (gprs : Vector Byte 7) (sp : Byte) :
    bootTextWith marker gprs sp text = .error e := by
  simp only [bootTextWith, malformed]

/-- A text that is an image boots as the image does. -/
theorem bootTextWith_of_ok {marker : Char} {text : List Char} {image : List Byte}
    (parsed : parseImageWith marker text = .ok image) (gprs : Vector Byte 7) (sp : Byte) :
    bootTextWith marker gprs sp text = bootWith gprs sp image := by
  simp only [bootTextWith, parsed]

/-- Settles O3: the size check and the parse each reject before there is a core. -/
theorem rejectedImagesNeverBoot : Obligations.RejectedImagesNeverBoot :=
  fun _ gprs sp => ⟨fun _ large => bootWith_of_too_large large gprs sp,
    fun _ _ malformed => bootTextWith_of_error malformed gprs sp,
    fun _ _ parsed large => (bootTextWith_of_ok parsed gprs sp).trans (bootWith_of_too_large large gprs sp)⟩

/-- A line feed ends the first line. -/
theorem splitLines_append {line : List Char} (noFeed : '\n' ∉ line) (text : List Char) :
    splitLines (line ++ '\n' :: text) = line :: splitLines text := by
  induction line with
  | nil => rfl
  | cons c line ih =>
    have notFeed : c ≠ '\n' := (List.ne_of_not_mem_cons noFeed).symm
    simp only [List.cons_append, splitLines, if_neg notFeed, ih (List.not_mem_of_not_mem_cons noFeed)]

/-- The character of a binary digit. -/
def binaryDigit (bit : Bool) : Char := if bit then '1' else '0'

/-- The binary digits of the low `k` bits of a byte, most significant first. -/
def lowDigits (b : Byte) : Nat → List Char
  | 0     => []
  | k + 1 => binaryDigit (b.getLsbD k) :: lowDigits b k

/-- The text of a byte is the digits of its eight bits. -/
theorem binaryText_eq_lowDigits (b : Byte) : binaryText b = lowDigits b 8 := rfl

/-- A digit is read behind the number read so far. -/
theorem binaryFrom_binaryDigit (acc : Nat) (bit : Bool) (cs : List Char) :
    binaryFrom acc (binaryDigit bit :: cs) = binaryFrom (2 * acc + bit.toNat) cs := by
  cases bit <;> rfl

/-- Behind the bits from `k` up, the low `k` bits make the byte whole. -/
theorem binaryFrom_lowDigits (b : Byte) (k : Nat) : binaryFrom (b.toNat >>> k) (lowDigits b k) = some b.toNat := by
  induction k with
  | zero => rfl
  | succ k ih =>
    have bit : 2 * (b.toNat >>> (k + 1)) + (b.getLsbD k).toNat = b.toNat >>> k := by
      rw [BitVec.getLsbD, Nat.toNat_testBit, Nat.shiftRight_succ, Nat.shiftRight_eq_div_pow]
      omega
    rw [lowDigits, binaryFrom_binaryDigit, bit, ih]

/-- The text of a byte is a literal of that value (rule R153). -/
theorem parseLiteral_binaryText (b : Byte) : parseLiteral (binaryText b) = some b := by
  have value : binaryFrom 0 (binaryText b) = some b.toNat := by
    have digits := binaryFrom_lowDigits b 8
    rwa [Nat.shiftRight_eq_zero _ _ b.isLt] at digits
  rw [binaryText_eq_lowDigits, lowDigits] at value ⊢
  simp only [parseLiteral, value, if_pos b.isLt]
  simp

/-- The text of a byte consists of binary digits. -/
theorem mem_binaryText {b : Byte} {c : Char} (h : c ∈ binaryText b) : c = '0' ∨ c = '1' := by
  obtain ⟨k, -, rfl⟩ := List.mem_map.mp h
  split
  · exact .inr rfl
  · exact .inl rfl

/-- No binary digit is white space. -/
theorem not_isBlank_of_mem_binaryText {b : Byte} {c : Char} (h : c ∈ binaryText b) : ¬ isBlank c = true := by
  obtain rfl | rfl := mem_binaryText h
  · decide
  · decide

/-- A text without white space is dropped nowhere. -/
theorem dropWhile_isBlank_of_solid {token : List Char} (solid : ∀ c ∈ token, ¬ isBlank c = true) :
    token.dropWhile isBlank = token := by
  cases token with
  | nil => rfl
  | cons c cs => exact List.dropWhile_cons_of_neg (solid c List.mem_cons_self)

/-- The white space behind a token is removed (rules R150, R151). -/
theorem trim_append_blanks {token blanks : List Char} (nonempty : token ≠ []) (solid : ∀ c ∈ token, ¬ isBlank c = true)
    (blank : ∀ c ∈ blanks, isBlank c = true) : trim (token ++ blanks) = token := by
  have front : (token ++ blanks).dropWhile isBlank = token ++ blanks := by
    obtain ⟨c, cs, rfl⟩ := List.exists_cons_of_ne_nil nonempty
    exact List.dropWhile_cons_of_neg (solid c List.mem_cons_self)
  have back : (token ++ blanks).reverse.dropWhile isBlank = token.reverse := by
    rw [List.reverse_append, List.dropWhile_append_of_pos (by simpa using blank)]
    exact dropWhile_isBlank_of_solid (by simpa using solid)
  rw [trim, front, back, List.reverse_reverse]

/-- In front of the marker stand the token and the separating blank, or the token alone where the blank is itself the
marker. -/
theorem stripComment_eq_append_blanks {marker : Char} {token : List Char} (unmarked : marker ∉ token)
    (comment : List Char) : ∃ blanks, (∀ c ∈ blanks, isBlank c = true) ∧
      stripComment marker (token ++ ' ' :: marker :: comment) = token ++ blanks := by
  have keep : ∀ c ∈ token, decide (c ≠ marker) = true := fun c hc =>
    decide_eq_true fun same => unmarked (same ▸ hc)
  rw [stripComment, List.takeWhile_append_of_pos keep]
  by_cases isMarker : ' ' = marker
  · exact ⟨[], by simp, by simpa using isMarker⟩
  · exact ⟨[' '], by simp [isBlank], by simp [isMarker]⟩

/-- A line that holds the text of a byte contributes that byte. -/
theorem parseLines_cons_of_token {marker : Char} {line : List Char} {b : Byte}
    (token : trim (stripComment marker line) = binaryText b) {n : Nat} {ls : List (List Char)} {bs : List Byte}
    (others : parseLines marker (n + 1) ls = .ok bs) : parseLines marker n (line :: ls) = .ok (b :: bs) := by
  have literal := parseLiteral_binaryText b
  rw [binaryText_eq_lowDigits, lowDigits] at token literal
  simp only [parseLines, token, literal, others]

/-- A byte's line without its line feed is the token it holds and a comment. -/
theorem trim_stripComment_line {marker : Char} (not0 : marker ≠ '0') (not1 : marker ≠ '1') (b : Byte)
    (comment : List Char) : trim (stripComment marker (binaryText b ++ ' ' :: marker :: comment)) = binaryText b := by
  have unmarked : marker ∉ binaryText b := fun isDigit => (mem_binaryText isDigit).elim not0 not1
  obtain ⟨blanks, blank, stripped⟩ := stripComment_eq_append_blanks unmarked comment
  have nonempty : binaryText b ≠ [] := List.cons_ne_nil _ _
  rw [stripped, trim_append_blanks nonempty (fun _ => not_isBlank_of_mem_binaryText) blank]

/-- The first line of a text that begins with a byte's line. -/
theorem splitLines_imageLine_append {marker : Char} (notFeed : marker ≠ '\n') (b : Byte) {comment : List Char}
    (noFeed : '\n' ∉ comment) (text : List Char) : splitLines (imageLine marker b comment ++ text) =
      (binaryText b ++ ' ' :: marker :: comment) :: splitLines text := by
  have digits : '\n' ∉ binaryText b := fun isDigit => by simpa using mem_binaryText isDigit
  have oneLine : '\n' ∉ binaryText b ++ ' ' :: marker :: comment := by
    simp [digits, noFeed, notFeed.symm]
  rw [← splitLines_append oneLine]
  simp [imageLine]

/-- Bytes written one a line are read back, whatever number their first line has. -/
theorem parseLines_imageLines {marker : Char} (not0 : marker ≠ '0') (not1 : marker ≠ '1') (notFeed : marker ≠ '\n')
    {lines : List (Byte × List Char)} (noFeed : ∀ l ∈ lines, '\n' ∉ l.2) (n : Nat) :
    parseLines marker n (splitLines (lines.flatMap fun l => imageLine marker l.1 l.2)) = .ok (lines.map (·.1)) := by
  induction lines generalizing n with
  | nil => rfl
  | cons l lines ih =>
    obtain ⟨first, others⟩ := List.forall_mem_cons.mp noFeed
    rw [List.flatMap_cons, splitLines_imageLine_append notFeed l.1 first]
    exact parseLines_cons_of_token (trim_stripComment_line not0 not1 l.1 l.2) (ih others (n + 1))

/-- Settles O4, by induction on the lines; a text boots as the image it is. -/
theorem imageTextReadsBackItsBytes : Obligations.ImageTextReadsBackItsBytes := by
  intro marker lines not0 not1 notFeed noFeed
  have parsed := parseLines_imageLines not0 not1 notFeed noFeed 1
  exact ⟨parsed, bootTextWith_of_ok parsed⟩

end Sys2Proof.Machine
